-- ==== Sys2Proof/Word.lean ====
section
/-! DEFINITION. The word types of the machine: bytes, program-counter values, register numbers. -/

namespace Sys2Proof

/-- One byte: a register, a memory cell, an opcode or operand byte, an emitted value
(00_scope.md R5, R7). -/
abbrev Byte := BitVec 8

/-- A value of the program counter: 9 bits, of which a run uses 0 to 256 (00_scope.md R9).
`FAULT.INFO` and `FAULT.PC` have this width too (log 11). -/
abbrev PcWord := BitVec 9

/-- A valid register number, 0 to 7 (00_scope.md R6). -/
abbrev RegIdx := Fin 8

/-- The number of cells of memory: valid addresses are exactly 0 to 255 (00_scope.md R5). -/
abbrev memSize : Nat := 256

end Sys2Proof
end

