-- ==== Sys2Proof/Config.lean ====
section
/-! DEFINITION. The parameters the spec leaves to the implementer (00_scope.md R8, R10). Their
default values stand in Machine/Params.lean. No value of this hardware is undefined, so there is
no free value here (93_implementation_defined.md Part A). -/

namespace Sys2Proof

/-- The 15 mnemonics, the keys of the parameter `OPC` (00_scope.md R10). -/
inductive Mnemonic where
  | hlt | ldi | prn | add | sub | mul | div | cmp | push | pop | call | ret | jmp | jeq | jne
  deriving DecidableEq, Repr

/-- The implementation parameters of 00_scope.md section 4 that the spec leaves open. -/
structure Config where
  /-- `OPC`: the opcode byte of each mnemonic (00_scope.md R10). -/
  opc : Mnemonic → Byte
  /-- `SP_INIT`: what register 7 holds after reset (00_scope.md R8). -/
  spInit : Byte

/-- The opcode map gives 15 distinct bytes (00_scope.md R10: "constrained only to be injective"). -/
def OpcInjective (opc : Mnemonic → Byte) : Prop := ∀ m n, opc m = opc n → m = n

/-- What 92_eei_decisions.md D3 requires of `OPC`: injective, and LDI at the one byte the source
document gives. -/
def Config.Admissible (c : Config) : Prop := OpcInjective c.opc ∧ c.opc .ldi = 0x82#8

end Sys2Proof
end

