-- ==== Sys2Proof/Machine/Params.lean ====
section
/-! DEFINITION. The default values of the parameters: the opcode map of 30_encoding.md R52 and
`SP_INIT` of 00_scope.md R8. -/

namespace Sys2Proof

/-- The opcode map of 30_encoding.md R52. LDI's byte is the source document's; the other 14 are
the spec's, from general knowledge of the LS-8 family. PRESUMED (unsafe), log 2. -/
def defaultOpc : Mnemonic → Byte
  | .hlt => 0b00000001#8
  | .ldi => 0b10000010#8
  | .prn => 0b01000111#8
  | .add => 0b10100000#8
  | .sub => 0b10100001#8
  | .mul => 0b10100010#8
  | .div => 0b10100011#8
  | .cmp => 0b10100111#8
  | .push => 0b01000101#8
  | .pop => 0b01000110#8
  | .call => 0b01010000#8
  | .ret => 0b00010001#8
  | .jmp => 0b01010100#8
  | .jeq => 0b01010101#8
  | .jne => 0b01010110#8

/-- `SP_INIT`'s default, the LS-8 convention (00_scope.md R8). PRESUMED (unsafe), log 1. -/
def defaultSpInit : Byte := 0xF4#8

/-- The machine's parameters at their defaults. -/
def Config.default : Config := ⟨defaultOpc, defaultSpInit⟩

end Sys2Proof
end

