-- ==== Sys2Proof/Machine/State.lean ====
section
/-! DEFINITION. The state of the machine, as plain data: every piece of state of 10_state.md
section 1 and nothing else (10_state.md R30). -/

namespace Sys2Proof.Machine

/-- `RUN`, the run state of the execution engine (10_state.md R26). -/
inductive RunState where
  | running
  | halted
  | faulted
  deriving DecidableEq, Repr

/-- `FAULT.CAUSE`, the fault kinds of 60_exceptions.md R86. The hardware's faults are states of the
machine, not values of `Fault` below (log 3). -/
inductive Cause where
  /-- code 0: no fault recorded -/
  | none
  /-- code 1 (R87) -/
  | outOfRange
  /-- code 2 (R88) -/
  | divisionByZero
  /-- code 3, reserved and never recorded (R89) -/
  | unsupportedOperation
  /-- code 4 (R90) -/
  | unknownOpcode
  /-- code 5 (R91) -/
  | flagsUninitialized
  deriving DecidableEq, Repr

/-- `FAULT`, the fault record (10_state.md R27, 60_exceptions.md R95). -/
structure FaultRecord where
  cause : Cause
  info : PcWord
  pc : PcWord
  deriving DecidableEq, Repr

/-- The record after reset: cause 0, info 0, pc 0 (10_state.md R31). -/
def FaultRecord.cleared : FaultRecord := ⟨.none, 0, 0⟩

/-- What a `raise <Kind>(info)` of the spec's pseudocode carries (00_scope.md R12, "Faults"). -/
structure Raise where
  cause : Cause
  info : PcWord
  deriving DecidableEq, Repr

/-- The three flags and the flags-valid latch: named bits with no byte layout
(10_state.md R22, R24, R25). -/
structure Flags where
  equal : Bool
  less : Bool
  greater : Bool
  valid : Bool
  deriving DecidableEq, Repr

/-- The flags after reset: the "unset" state, stored bits 0 (10_state.md R31). -/
def Flags.unset : Flags := ⟨false, false, false, false⟩

/-- The 256 cells of memory as (address, byte) pairs in the canonical form `Memory.wf` of
Machine/Ops.lean: addresses rising and below 256, no zero byte listed, an unlisted cell reads 0
(10_state.md R29, R31, log 13). -/
abbrev Memory := List Host.Cell

/-- The machine's state (10_state.md section 1). -/
structure State where
  /-- `x[0]` to `x[7]`, of which `x[7]` is the stack pointer (R13, R14) -/
  regs : Vector Byte 8
  /-- the program counter, 0 to 256 in a run (R19) -/
  pc : PcWord
  /-- `FL` (R22, R24) -/
  flags : Flags
  /-- `RUN` (R26) -/
  run : RunState
  /-- `FAULT` (R27) -/
  fault : FaultRecord
  /-- `mem[0]` to `mem[255]` (R29) -/
  mem : Memory
  /-- `OUT`, everything emitted, oldest first (R28) -/
  out : List Byte
  deriving DecidableEq, Repr

/-- Ways a step can stop the model: none. Every fault of this hardware is an effect the spec
describes, a next state whose run state is `faulted` (60_exceptions.md R85, R95), so this type has
no constructor and no step answers one. DEDUCED (safe), log 3. -/
inductive Fault where
  deriving DecidableEq, Repr

/-- Reasons the model gives an instruction no meaning. -/
inductive Refusal where
  /-- Raised by an arm of `exec` whose instruction has no meaning yet. No arm is such; it would be
  safe. -/
  | notModelled (mnemonic : String)
  deriving DecidableEq, Repr

/-- The state after reset with an empty program image and stack pointer `spInit`
(10_state.md R31, 70_reset_and_hazards.md R105). -/
def State.resetWith (spInit : Byte) : State where
  regs := #v[0, 0, 0, 0, 0, 0, 0, spInit]
  pc := 0
  flags := Flags.unset
  run := .running
  fault := FaultRecord.cleared
  mem := []
  out := []

/-- The machine right after reset, with `SP_INIT` at its default (log 1) and no program loaded
(log 5). -/
def State.reset : State := State.resetWith Config.default.spInit

end Sys2Proof.Machine
end

