-- ==== Sys2Proof/Machine/Ops.lean ====
section
/-! DEFINITION. The named operations over memory, registers, the stack, the observation channel and
the program counter, and the one operation that takes a fault. -/

namespace Sys2Proof.Machine

/-- What an instruction answers: always a next state on this hardware. -/
abbrev Answer := Host.Outcome State Fault Refusal

/-- Work that may raise a fault before it is finished (00_scope.md R12, "Faults"). -/
abbrev Attempt (α : Type) := Except Raise α

/-! ### Numbers -/

/-- Reduction modulo 256, which every register write performs (10_state.md R15). -/
def wrap8 (n : Int) : Byte := BitVec.ofInt 8 n

/-- `zext_9`: a byte as a 9-bit value (44_control_transfer.md R79). -/
def zext9 (b : Byte) : PcWord := b.setWidth 9

/-- The code `FAULT.CAUSE` takes for each fault kind (60_exceptions.md R86). -/
def Cause.code : Cause → Nat
  | .none => 0
  | .outOfRange => 1
  | .divisionByZero => 2
  | .unsupportedOperation => 3
  | .unknownOpcode => 4
  | .flagsUninitialized => 5

/-! ### Memory -/

/-- What a cell that is not listed reads as: memory is zero-initialized (10_state.md R29, R31). -/
def Memory.unlisted : Byte := 0

/-- The byte in cell `a`. -/
def Memory.read : Memory → Nat → Byte
  | [], _ => Memory.unlisted
  | (b, w) :: m, a => if a = b then w else Memory.read m a

/-- `m` with cell `a` no longer listed. -/
def Memory.erase (m : Memory) (a : Nat) : Memory := m.filter (fun c => c.1 != a)

/-- List the cell `(a, v)` in its place in a memory that does not list `a`. -/
def Memory.insert : Memory → Nat → Byte → Memory
  | [], a, v => [(a, v)]
  | (b, w) :: m, a, v => if a < b then (a, v) :: (b, w) :: m else (b, w) :: Memory.insert m a v

/-- Set cell `a` to `v`, keeping the canonical form: a cell that is to read as an unlisted one is
not listed. -/
def Memory.write (m : Memory) (a : Nat) (v : Byte) : Memory :=
  if v = Memory.unlisted then m.erase a else (m.erase a).insert a v

/-- The canonical form from address `lo` up: addresses strictly rising, none below `lo`, all below
256, and no cell equal to what an unlisted one reads as. -/
def Memory.wfFrom (lo : Nat) : Memory → Bool
  | [] => true
  | (a, v) :: m =>
    decide (lo ≤ a) && decide (a < memSize) && decide (v ≠ Memory.unlisted) && Memory.wfFrom (a + 1) m

/-- The canonical form of a memory: equal memories are equal lists. -/
def Memory.wf (m : Memory) : Bool := Memory.wfFrom 0 m

/-- The bytes from address `a` up, at most `n` of them and none past the end of memory. -/
def Memory.bytesFrom (m : Memory) : Nat → Nat → List Byte
  | 0, _ => []
  | n + 1, a => if a < memSize then m.read a :: Memory.bytesFrom m n (a + 1) else []

/-- Store bytes at ascending addresses from `a`; a byte past the end of memory has no cell and is
dropped. -/
def Memory.storeBytes (m : Memory) : Nat → List Byte → Memory
  | _, [] => m
  | a, v :: vs => Memory.storeBytes (if a < memSize then m.write a v else m) (a + 1) vs

/-- The state with its memory replaced. -/
def State.setMem (s : State) (m : Memory) : State := { s with mem := m }

/-- `MemRead(a, 1)`: the byte in cell `a`, or `OutOfRange(a)` when `a > 255` (20_memory.md R34).
`FAULT.INFO` is 9 bits wide, so of an address above 511, which nothing on this hardware can form,
it would keep the low 9 bits (log 11). -/
def State.memRead (s : State) (a : Nat) : Attempt Byte :=
  if a < memSize then .ok (s.mem.read a) else .error ⟨.outOfRange, BitVec.ofNat 9 a⟩

/-- `MemWrite(a, 1, v)`: cell `a` set to `v` and every other cell left alone, or `OutOfRange(a)`
when `a > 255` (20_memory.md R34). -/
def State.memWrite (s : State) (a : Nat) (v : Byte) : Attempt State :=
  if a < memSize then .ok (s.setMem (s.mem.write a v))
  else .error ⟨.outOfRange, BitVec.ofNat 9 a⟩

/-! ### Registers, flags and the run state -/

/-- `x[i]` (10_state.md R13). No register is hardwired. -/
def State.reg (s : State) (i : RegIdx) : Byte := s.regs[i.val]

/-- `x[i] <- v` (10_state.md R15). -/
def State.setReg (s : State) (i : RegIdx) (v : Byte) : State := { s with regs := s.regs.set i.val v }

/-- Register 7 is the stack pointer (00_scope.md R6, 10_state.md R14). -/
def spIdx : RegIdx := 7

/-- `SP`, another name for `x[7]` (10_state.md R14). -/
def State.sp (s : State) : Byte := s.reg spIdx

/-- The flags replaced, all three and the latch at once (10_state.md R23). -/
def State.setFlags (s : State) (f : Flags) : State := { s with flags := f }

/-- `RUN <- r` (10_state.md R26). -/
def State.setRun (s : State) (r : RunState) : State := { s with run := r }

/-! ### The program counter and the observation channel -/

/-- `pc <- pc + n`, in 9 bits (10_state.md R21). -/
def State.advance (s : State) (n : Nat) : State := { s with pc := s.pc + BitVec.ofNat 9 n }

/-- `pc <- zext_9(v)`: every transfer target is an absolute 8-bit address (44_control_transfer.md
R79). -/
def State.jump (s : State) (v : Byte) : State := { s with pc := zext9 v }

/-- `Emit(v)`: append `v` to `OUT` (10_state.md R28). -/
def State.emit (s : State) (v : Byte) : State := { s with out := s.out ++ [v] }

/-! ### The stack (20_memory.md R41, R42, 43_stack.md R76) -/

/-- `x[7] <- (x[7] - 1) mod 256`. -/
def State.decrementSp (s : State) : State := s.setReg spIdx (wrap8 ((s.sp.toNat : Int) - 1))

/-- `x[7] <- (x[7] + 1) mod 256`. -/
def State.incrementSp (s : State) : State := s.setReg spIdx (wrap8 ((s.sp.toNat : Int) + 1))

/-- A push: decrement `SP`, then write at the new `SP`. The pushed value is read from the state
after the decrement (43_stack.md R76, R77). -/
def State.pushByte (s : State) (value : State → Byte) : Attempt State :=
  let s₁ := s.decrementSp
  s₁.memWrite s₁.sp.toNat (value s₁)

/-- The byte on top of the stack (43_stack.md R76). -/
def State.topByte (s : State) : Attempt Byte := s.memRead s.sp.toNat

/-! ### Taking a fault -/

/-- Taking a fault: `RUN <- Faulted`, `FAULT.CAUSE`, `FAULT.INFO` as raised, `FAULT.PC <- pc`, and
nothing else; control goes nowhere (60_exceptions.md R85, R94, R95). There is no return from a
fault and so no operation for it: only reset leaves `Faulted` (R96), and reset is the host's
(`State.launch`, Machine/Launch.lean). -/
def State.takeFault (s : State) (r : Raise) : State :=
  { s with run := .faulted, fault := ⟨r.cause, r.info, s.pc⟩ }

/-- End an instruction begun in `s`: its finished state, or, where it raised a fault, `s` itself
with the fault taken, so that none of the instruction's writes take effect (60_exceptions.md
R94). -/
def finish (s : State) : Attempt State → Answer
  | .ok t => .next t
  | .error r => .next (s.takeFault r)

end Sys2Proof.Machine
end

