-- ==== Sys2Proof/Machine/Flags.lean ====
section
/-! DEFINITION. The flag computations: CMP writes all three flags and the latch, the conditional
jumps test Equal once a compare has run. No other instruction touches a flag (10_state.md R23). -/

namespace Sys2Proof.Machine

/-- The flags of an unsigned comparison, with the latch set (42_alu.md R73). -/
def compareFlags (x y : Byte) : Flags where
  equal := decide (x.toNat = y.toNat)
  less := decide (x.toNat < y.toNat)
  greater := decide (y.toNat < x.toNat)
  valid := true

/-- The Equal flag as a conditional jump reads it: `FlagsUninitialized` while no compare has run
(10_state.md R24, 60_exceptions.md R91). -/
def State.testEqual (s : State) : Attempt Bool :=
  if s.flags.valid then .ok s.flags.equal else .error ⟨.flagsUninitialized, 0⟩

end Sys2Proof.Machine
end

