-- ==== Sys2Proof/Machine/Operands.lean ====
section
/-! DEFINITION. The operand forms: validation of register operand bytes, stage 4 of the instruction
cycle (30_encoding.md R54, R57). -/

namespace Sys2Proof.Machine

/-- The operand byte that names register `i`. -/
def regByte (i : RegIdx) : Byte := BitVec.ofNat 8 i.val

/-- A register operand: the whole byte read as a number names a register when it is 0 to 7, and
raises `OutOfRange(byte)` otherwise; it is not masked (10_state.md R16, 30_encoding.md R54). -/
def regOperand (b : Byte) : Attempt RegIdx :=
  if h : b.toNat < 8 then .ok ⟨b.toNat, h⟩ else .error ⟨.outOfRange, zext9 b⟩

/-- An instruction with one register operand (formats R and RI): validate it, then execute. -/
def withReg (r : Byte) (execute : RegIdx → Attempt State) (s : State) : Answer :=
  finish s (do
    let i ← regOperand r
    execute i)

/-- An instruction with two register operands (format RR): validate the first, then the second,
then execute (60_exceptions.md R93 (4)). -/
def withRegs (a b : Byte) (execute : RegIdx → RegIdx → Attempt State) (s : State) : Answer :=
  finish s (do
    let i ← regOperand a
    let j ← regOperand b
    execute i j)

end Sys2Proof.Machine
end

