-- ==== Sys2Proof/Machine/Alu.lean ====
section
/-! DEFINITION. The ALU and the meanings of ADD, SUB, MUL, DIV and CMP (42_alu.md). -/

namespace Sys2Proof.Machine

/-- The ALU's selector: a closed set of five operations, so `UnsupportedOperation` cannot arise
(30_encoding.md R63, 42_alu.md R74). -/
inductive AluOp where
  | add | sub | mul | div | cmp
  deriving DecidableEq, Repr

/-- The ALU (42_alu.md R67): both registers are read, then ADD, SUB, MUL and DIV write the first
register modulo 256 and CMP writes the flags. DIV by 0 raises `DivisionByZero(j)` (R72). -/
def State.alu (s : State) (op : AluOp) (i j : RegIdx) : Attempt State :=
  let x : Int := (s.reg i).toNat
  let y : Int := (s.reg j).toNat
  match op with
  | .add => .ok (s.setReg i (wrap8 (x + y)))
  | .sub => .ok (s.setReg i (wrap8 (x - y)))
  | .mul => .ok (s.setReg i (wrap8 (x * y)))
  | .div =>
    if y = 0 then .error ⟨.divisionByZero, BitVec.ofNat 9 j.val⟩
    else .ok (s.setReg i (wrap8 (x / y)))
  | .cmp => .ok (s.setFlags (compareFlags (s.reg i) (s.reg j)))

/-- An ALU instruction: format RR, the operation, `pc <- pc + 3` (42_alu.md R67, R68). -/
def aluInstr (op : AluOp) (a b : Byte) (s : State) : Answer :=
  withRegs a b (fun i j => do
    let t ← s.alu op i j
    .ok (t.advance 3)) s

/-- ADD (42_alu.md R69). -/
def execAdd (a b : Byte) (s : State) : Answer := aluInstr .add a b s

/-- SUB (42_alu.md R70). -/
def execSub (a b : Byte) (s : State) : Answer := aluInstr .sub a b s

/-- MUL (42_alu.md R71). -/
def execMul (a b : Byte) (s : State) : Answer := aluInstr .mul a b s

/-- DIV (42_alu.md R72). -/
def execDiv (a b : Byte) (s : State) : Answer := aluInstr .div a b s

/-- CMP (42_alu.md R73). -/
def execCmp (a b : Byte) (s : State) : Answer := aluInstr .cmp a b s

end Sys2Proof.Machine
end

