-- ==== Sys2Proof/Machine/Control.lean ====
section
/-! DEFINITION. The meanings of CALL, RET, JMP, JEQ and JNE (44_control_transfer.md). -/

namespace Sys2Proof.Machine

/-- CALL: raise `OutOfRange(pc + 2)` when `pc + 2 > 255`; else push `pc + 2` and jump to `x[r]`,
read after the decrement of `SP` (44_control_transfer.md R80). -/
def execCall (r : Byte) (s : State) : Answer :=
  withReg r (fun i =>
    if 255 < s.pc.toNat + 2 then .error ⟨.outOfRange, s.pc + 2⟩
    else do
      let t ← s.pushByte (fun _ => wrap8 (s.pc.toNat + 2))
      .ok (t.jump (t.reg i))) s

/-- RET: `pc` takes the byte at `SP`, then `SP` is incremented (44_control_transfer.md R81). -/
def execRet (s : State) : Answer :=
  finish s (do
    let v ← s.topByte
    .ok (s.jump v).incrementSp)

/-- JMP: `pc <- x[r]` (44_control_transfer.md R82). -/
def execJmp (r : Byte) (s : State) : Answer := withReg r (fun i => .ok (s.jump (s.reg i))) s

/-- A conditional jump: to `x[r]` when the Equal flag is `wanted`, else `pc <- pc + 2`
(44_control_transfer.md R83, R84). -/
def condJump (wanted : Bool) (r : Byte) (s : State) : Answer :=
  withReg r (fun i => do
    let e ← s.testEqual
    .ok (if e = wanted then s.jump (s.reg i) else s.advance 2)) s

/-- JEQ (44_control_transfer.md R83). -/
def execJeq (r : Byte) (s : State) : Answer := condJump true r s

/-- JNE (44_control_transfer.md R84). -/
def execJne (r : Byte) (s : State) : Answer := condJump false r s

end Sys2Proof.Machine
end

