-- ==== Sys2Proof/Machine/Halt.lean ====
section
/-! DEFINITION. The meaning of HLT (40_halt.md). -/

namespace Sys2Proof.Machine

/-- HLT: `RUN <- Halted` and nothing else, `pc` included (40_halt.md R64). -/
def execHlt (s : State) : Answer := finish s (.ok (s.setRun .halted))

end Sys2Proof.Machine
end

