-- ==== Sys2Proof/Machine/LoadPrint.lean ====
section
/-! DEFINITION. The meanings of LDI and PRN (41_load_and_print.md). -/

namespace Sys2Proof.Machine

/-- LDI: `x[r] <- imm; pc <- pc + 3` (41_load_and_print.md R65). -/
def execLdi (r imm : Byte) (s : State) : Answer :=
  withReg r (fun i => .ok ((s.setReg i imm).advance 3)) s

/-- PRN: `Emit(x[r]); pc <- pc + 2` (41_load_and_print.md R66). -/
def execPrn (r : Byte) (s : State) : Answer :=
  withReg r (fun i => .ok ((s.emit (s.reg i)).advance 2)) s

end Sys2Proof.Machine
end

