-- ==== Sys2Proof/Machine/Stack.lean ====
section
/-! DEFINITION. The meanings of PUSH and POP (43_stack.md). -/

namespace Sys2Proof.Machine

/-- PUSH: decrement `SP`, then write `x[r]` at `SP`, both read after the decrement;
`pc <- pc + 2` (43_stack.md R77). -/
def execPush (r : Byte) (s : State) : Answer :=
  withReg r (fun i => do
    let t ← s.pushByte (fun s₁ => s₁.reg i)
    .ok (t.advance 2)) s

/-- POP: read the byte at `SP` into `x[r]`, then increment `SP`, read after that write;
`pc <- pc + 2` (43_stack.md R78). -/
def execPop (r : Byte) (s : State) : Answer :=
  withReg r (fun i => do
    let v ← s.topByte
    .ok ((s.setReg i v).incrementSp.advance 2)) s

end Sys2Proof.Machine
end

