-- ==== Sys2Proof/Syntax.lean ====
section
/-! DEFINITION. The instructions: one constructor per row of the opcode table. An operand is the
operand byte as it stands in memory, so that a register operand above 7, which the instruction
itself turns away with a fault (10_state.md R16), can be written down (log 8). -/

namespace Sys2Proof

/-- The 15 instructions (30_encoding.md R50, R52), operands in the order of their bytes. -/
inductive Instr where
  /-- HLT, format N (40_halt.md R64). -/
  | hlt
  /-- LDI r, imm, format RI (41_load_and_print.md R65). -/
  | ldi (r imm : Byte)
  /-- PRN r, format R (41_load_and_print.md R66). -/
  | prn (r : Byte)
  /-- ADD a, b, format RR (42_alu.md R69). -/
  | add (a b : Byte)
  /-- SUB a, b, format RR (42_alu.md R70). -/
  | sub (a b : Byte)
  /-- MUL a, b, format RR (42_alu.md R71). -/
  | mul (a b : Byte)
  /-- DIV a, b, format RR (42_alu.md R72). -/
  | div (a b : Byte)
  /-- CMP a, b, format RR (42_alu.md R73). -/
  | cmp (a b : Byte)
  /-- PUSH r, format R (43_stack.md R77). -/
  | push (r : Byte)
  /-- POP r, format R (43_stack.md R78). -/
  | pop (r : Byte)
  /-- CALL r, format R (44_control_transfer.md R80). -/
  | call (r : Byte)
  /-- RET, format N (44_control_transfer.md R81). -/
  | ret
  /-- JMP r, format R (44_control_transfer.md R82). -/
  | jmp (r : Byte)
  /-- JEQ r, format R (44_control_transfer.md R83). -/
  | jeq (r : Byte)
  /-- JNE r, format R (44_control_transfer.md R84). -/
  | jne (r : Byte)
  deriving DecidableEq, Repr

end Sys2Proof
end

