-- ==== Sys2Proof/Decode.lean ====
section
/-! DEFINITION. The decoder, total on any bytes and rejecting by name, and the encoder, both
written from the opcode map and the format table (30_encoding.md R50 to R52). Both take the
opcode map, the spec's parameter `OPC`, as an argument. -/

namespace Sys2Proof

/-- The four formats of 30_encoding.md R50. -/
inductive Format where
  /-- no operand byte -/
  | n
  /-- one register operand -/
  | r
  /-- two register operands -/
  | rr
  /-- a register operand and an immediate -/
  | ri
  deriving DecidableEq, Repr

/-- Why the decoder turns bytes away. -/
inductive DecodeError where
  /-- There is no opcode byte to read. -/
  | noOpcode
  /-- The opcode byte is none of the 15 of the opcode map (30_encoding.md R56). -/
  | unknownOpcode (b : Byte)
  /-- The opcode is known, but its `k`-th operand byte is not there (30_encoding.md R58). -/
  | missingOperand (k : Nat)
  deriving DecidableEq, Repr

/-- How many operand bytes a format has (30_encoding.md R50). -/
def Format.operandCount : Format → Nat
  | .n => 0
  | .r => 1
  | .rr => 2
  | .ri => 2

/-- The format of each mnemonic (30_encoding.md R52). -/
def Mnemonic.format : Mnemonic → Format
  | .hlt => .n
  | .ldi => .ri
  | .prn => .r
  | .add => .rr
  | .sub => .rr
  | .mul => .rr
  | .div => .rr
  | .cmp => .rr
  | .push => .r
  | .pop => .r
  | .call => .r
  | .ret => .n
  | .jmp => .r
  | .jeq => .r
  | .jne => .r

/-- The rows of the opcode map, in the table's order. -/
def Mnemonic.all : List Mnemonic :=
  [.hlt, .ldi, .prn, .add, .sub, .mul, .div, .cmp, .push, .pop, .call, .ret, .jmp, .jeq, .jne]

/-- Look a byte up in the opcode map: the match is on the whole byte (30_encoding.md R51, R52). -/
def lookupOpcode (opc : Mnemonic → Byte) (b : Byte) : Option Mnemonic :=
  Mnemonic.all.find? (fun m => opc m == b)

/-- The instruction a mnemonic and its operand bytes stand for (30_encoding.md R50); an operand
the format lacks is ignored. -/
def Mnemonic.build (m : Mnemonic) (opa opb : Byte) : Instr :=
  match m with
  | .hlt => .hlt
  | .ldi => .ldi opa opb
  | .prn => .prn opa
  | .add => .add opa opb
  | .sub => .sub opa opb
  | .mul => .mul opa opb
  | .div => .div opa opb
  | .cmp => .cmp opa opb
  | .push => .push opa
  | .pop => .pop opa
  | .call => .call opa
  | .ret => .ret
  | .jmp => .jmp opa
  | .jeq => .jeq opa
  | .jne => .jne opa

/-- Read `n` operand bytes for the mnemonic `m` and leave the rest (30_encoding.md R57 stage 3). -/
def decodeOperands (m : Mnemonic) : Nat → List Byte → Except DecodeError (Instr × List Byte)
  | 0, rest => .ok (m.build 0 0, rest)
  | 1, opa :: rest => .ok (m.build opa 0, rest)
  | _ + 2, opa :: opb :: rest => .ok (m.build opa opb, rest)
  | _ + 2, [_] => .error (.missingOperand 2)
  | _ + 1, [] => .error (.missingOperand 1)

/-- Read one instruction from the front of `bytes` and leave the rest (30_encoding.md R51,
R57 stages 2 and 3). -/
def decode (opc : Mnemonic → Byte) (bytes : List Byte) : Except DecodeError (Instr × List Byte) :=
  match bytes with
  | [] => .error .noOpcode
  | op :: rest =>
    match lookupOpcode opc op with
    | none => .error (.unknownOpcode op)
    | some m => decodeOperands m m.format.operandCount rest

/-- The mnemonic of an instruction. -/
def Instr.mnemonic : Instr → Mnemonic
  | .hlt => .hlt
  | .ldi _ _ => .ldi
  | .prn _ => .prn
  | .add _ _ => .add
  | .sub _ _ => .sub
  | .mul _ _ => .mul
  | .div _ _ => .div
  | .cmp _ _ => .cmp
  | .push _ => .push
  | .pop _ => .pop
  | .call _ => .call
  | .ret => .ret
  | .jmp _ => .jmp
  | .jeq _ => .jeq
  | .jne _ => .jne

/-- The operand bytes of an instruction, first operand first (20_memory.md R38). -/
def Instr.operandBytes : Instr → List Byte
  | .hlt => []
  | .ldi r imm => [r, imm]
  | .prn r => [r]
  | .add a b => [a, b]
  | .sub a b => [a, b]
  | .mul a b => [a, b]
  | .div a b => [a, b]
  | .cmp a b => [a, b]
  | .push r => [r]
  | .pop r => [r]
  | .call r => [r]
  | .ret => []
  | .jmp r => [r]
  | .jeq r => [r]
  | .jne r => [r]

/-- The bytes of an instruction: the opcode byte at the lowest address, then the operand bytes
(20_memory.md R38, 30_encoding.md R50). -/
def encode (opc : Mnemonic → Byte) (i : Instr) : List Byte := opc i.mnemonic :: i.operandBytes

/-- The length of an instruction in bytes: the opcode byte and its operand bytes
(30_encoding.md R49). -/
def Instr.length (i : Instr) : Nat := 1 + i.mnemonic.format.operandCount

/-- The three bytes an instruction of at most 24 bits is laid out as, bit 0 the least significant
bit of the first byte; bits at or above `nbits` are 0. -/
def tableBytes (nbits w : Nat) : List Byte :=
  let v := w % 2 ^ nbits
  [BitVec.ofNat 8 v, BitVec.ofNat 8 (v / 256), BitVec.ofNat 8 (v / 65536)]

/-- The instruction the decoder reads from an instruction word numbered as the opcode table
numbers it. -/
def decodeTableWord (nbits w : Nat) : Option Instr :=
  match decode defaultOpc (tableBytes nbits w) with
  | .ok (i, _) => some i
  | .error _ => none

end Sys2Proof
end

