-- ==== Sys2Proof/Machine/Fetch.lean ====
section
/-! DEFINITION. Fetching and decoding the instruction at `pc`: stages 1 to 3 of the instruction
cycle (30_encoding.md R57). -/

namespace Sys2Proof.Machine

/-- The bytes the decoder may look at: those at `pc`, `pc + 1` and `pc + 2` that lie in memory.
Operand fetch does not wrap to address 0 (30_encoding.md R58). Reading a byte the instruction does
not have is not observable, since a read has no side effect (20_memory.md R34, R40); log 7. -/
def State.window (s : State) : List Byte := s.mem.bytesFrom 3 s.pc.toNat

/-- The fault each refusal of the decoder stands for: no opcode byte is `OutOfRange(pc)`, a missing
operand byte `OutOfRange` of its address (60_exceptions.md R87 (a), (b), R90). -/
def State.decodeRaise (s : State) : DecodeError → Raise
  | .noOpcode => ⟨.outOfRange, s.pc⟩
  | .unknownOpcode b => ⟨.unknownOpcode, zext9 b⟩
  | .missingOperand k => ⟨.outOfRange, s.pc + BitVec.ofNat 9 k⟩

/-- Fetch and decode the instruction at `pc` (30_encoding.md R57 stages 1 to 3). -/
def State.fetch (opc : Mnemonic → Byte) (s : State) : Attempt Instr :=
  match decode opc s.window with
  | .ok (i, _) => .ok i
  | .error e => .error (s.decodeRaise e)

/-- Put an instruction's bytes where the next step fetches, and have the engine run, since a step
is taken only when `RUN = Running` (10_state.md R26). Bytes past address 255 have no cell; log 10. -/
def State.placeInstr (s : State) (bytes : List Byte) : State :=
  { s with run := .running, mem := s.mem.storeBytes s.pc.toNat bytes }

end Sys2Proof.Machine
end

