-- ==== Sys2Proof/Machine/Step.lean ====
section
/-! DEFINITION. One step of the machine (30_encoding.md R57). -/

namespace Sys2Proof.Machine

/-- One step under the opcode map `opc`. A step is taken only when `RUN = Running`; `Halted` and
`Faulted` are absorbing, and the state stays identical for ever (10_state.md R26), which the model
writes as a step that changes nothing. DEDUCED (unsafe), log 4. -/
def stepWith (opc : Mnemonic → Byte) (s : State) : Host.Outcome State Fault Refusal :=
  match s.run with
  | .running =>
    match s.fetch opc with
    | .ok i => exec i s
    | .error r => .next (s.takeFault r)
  | .halted => .next s
  | .faulted => .next s

/-- One step, with `OPC` at its default (log 2). -/
def step (s : State) : Host.Outcome State Fault Refusal := stepWith Config.default.opc s

/-- `s` with the instruction whose bits are `w` stored where the next step fetches, so that the
next step runs it (log 5, log 10). -/
def State.withFetchWord (s : State) (nbits w : Nat) : State := s.placeInstr (tableBytes nbits w)

end Sys2Proof.Machine
end

