-- ==== Sys2Proof/Machine/Launch.lean ====
section
/-! DEFINITION. Reset with a program: the one event by which the host starts a run
(70_reset_and_hazards.md R104 to R108). It is no step of the machine (log 5, log 12). -/

namespace Sys2Proof.Machine

/-- The loader's contract: bytes written sequentially from address `a` through the write contract,
nothing but memory touched (70_reset_and_hazards.md R108). -/
def State.loadFrom (s : State) : Nat → List Byte → Attempt State
  | _, [] => .ok s
  | a, v :: vs => do
    let t ← s.memWrite a v
    State.loadFrom t (a + 1) vs

/-- Reset: construction, then the load of `IMAGE`; nothing of an earlier run survives, so no
earlier state is an argument (R104). A 257th byte makes the loader's write fail, and the launch
does not happen (R106). -/
def State.launch (spInit : Byte) (image : List Byte) : Attempt State :=
  (State.resetWith spInit).loadFrom 0 image

end Sys2Proof.Machine
end

