-- ==== Sys2Proof/Machine/ProgramFile.lean ====
section
/-! DEFINITION. The text around the machine, which the spec records and the machine never reads: the
program file the loader takes (30_encoding.md R61, 70_reset_and_hazards.md R108), the decimal text of
`OUT` (10_state.md R28) and the notation of listings (30_encoding.md R60). -/

namespace Sys2Proof.Machine

/-! ### The program file -/

/-- A line without its trailing comment, introduced by `#` (30_encoding.md R61). -/
def uncomment (line : List Char) : List Char := line.takeWhile (fun c => c != '#')

/-- A line without the whitespace at either end (30_encoding.md R61). -/
def strip (line : List Char) : List Char :=
  ((line.dropWhile Char.isWhitespace).reverse.dropWhile Char.isWhitespace).reverse

/-- The number base-2 digits stand for, leftmost digit most significant, with `n` read before
them. -/
def binaryValue : Nat → List Char → Option Nat
  | n, [] => some n
  | n, c :: cs =>
    if c = '0' then binaryValue (2 * n) cs
    else if c = '1' then binaryValue (2 * n + 1) cs
    else none

/-- The byte a token stands for. For a token that is not base-2 digits or is above 255 the spec
says nothing, and there is no byte (log 15). -/
def tokenByte (token : List Char) : Option Byte :=
  match binaryValue 0 token with
  | some n => if n < 256 then some (BitVec.ofNat 8 n) else none
  | none => none

/-- `IMAGE` as the lines of a program file give it: one byte a line, in order, blank lines ignored
(30_encoding.md R61). -/
def fileImage : List (List Char) → Option (List Byte)
  | [] => some []
  | line :: lines =>
    let token := strip (uncomment line)
    if token = [] then fileImage lines
    else
      match tokenByte token, fileImage lines with
      | some b, some bs => some (b :: bs)
      | _, _ => none

/-- Reset with the program of a file; no launch where the file gives no image (log 15). -/
def State.launchFile (spInit : Byte) (lines : List (List Char)) : Option (Attempt State) :=
  (fileImage lines).map (State.launch spInit)

/-- A byte as the program file writes it: eight base-2 digits, bit 7 leftmost
(30_encoding.md R61). -/
def byteDigits (b : Byte) : List Char :=
  [7, 6, 5, 4, 3, 2, 1, 0].map (fun k => if b.getLsbD k then '1' else '0')

/-! ### Output text and listings -/

/-- The name of a mnemonic, in capitals (30_encoding.md R60). -/
def mnemonicName : Mnemonic → List Char
  | .hlt => ['H', 'L', 'T']
  | .ldi => ['L', 'D', 'I']
  | .prn => ['P', 'R', 'N']
  | .add => ['A', 'D', 'D']
  | .sub => ['S', 'U', 'B']
  | .mul => ['M', 'U', 'L']
  | .div => ['D', 'I', 'V']
  | .cmp => ['C', 'M', 'P']
  | .push => ['P', 'U', 'S', 'H']
  | .pop => ['P', 'O', 'P']
  | .call => ['C', 'A', 'L', 'L']
  | .ret => ['R', 'E', 'T']
  | .jmp => ['J', 'M', 'P']
  | .jeq => ['J', 'E', 'Q']
  | .jne => ['J', 'N', 'E']

/-- A byte in decimal. -/
def decimal (b : Byte) : List Char := Nat.toDigits 10 b.toNat

/-- `OUT` as the host of the original program shows it: one decimal integer a line
(10_state.md R28). -/
def State.outputLines (s : State) : List (List Char) := s.out.map decimal

/-- The operands of a format, as the table of 30_encoding.md R60 writes them: a register is `R` and
its decimal index, an immediate a decimal number. -/
def operandText (f : Format) (opa opb : Byte) : List Char :=
  match f with
  | .n => []
  | .r => [' ', 'R'] ++ decimal opa
  | .rr => [' ', 'R'] ++ decimal opa ++ [',', ' ', 'R'] ++ decimal opb
  | .ri => [' ', 'R'] ++ decimal opa ++ [',', ' '] ++ decimal opb

/-- An instruction as a listing writes it (30_encoding.md R60, log 16). -/
def listing (i : Instr) : List Char :=
  mnemonicName i.mnemonic ++
    operandText i.mnemonic.format (i.operandBytes[0]?.getD 0) (i.operandBytes[1]?.getD 0)

end Sys2Proof.Machine
end

