-- ==== Sys2Proof/Safety.lean ====
section
/-! DEFINITION. The terms claims are made in: how a run ends, what a state leaves alone of another,
which fault a step must take, the registers an instruction reads and writes, and the invariant of
10_state.md R32. -/

namespace Sys2Proof.Machine

/-! ### The end of a run (70_reset_and_hazards.md R109) -/

/-- A run has ended when the engine is `Halted` or `Faulted`. -/
def State.Ended (s : State) : Prop := s.run ≠ .running

/-- A run that has ended is successful only if the engine is `Halted`. -/
def State.Succeeded (s : State) : Prop := s.run = .halted

/-! ### Frames -/

/-- Every register outside `ds` is the same. -/
def SameRegsExcept (ds : List RegIdx) (s t : State) : Prop := ∀ i, i ∉ ds → t.reg i = s.reg i

/-- Every cell of memory reads the same. -/
def SameMem (s t : State) : Prop := ∀ a, t.mem.read a = s.mem.read a

/-- Every cell of memory other than `a₀` reads the same. -/
def SameMemExcept (a₀ : Nat) (s t : State) : Prop := ∀ a, a ≠ a₀ → t.mem.read a = s.mem.read a

/-- The run state and the fault record are the same. -/
def SameStatus (s t : State) : Prop := t.run = s.run ∧ t.fault = s.fault

/-- A straight-line instruction of `n` bytes that wrote at most the registers `ds`: `pc` moved on by
`n`, and every other register, every flag, `RUN`, `FAULT`, every cell of memory and `OUT` are as
they were. -/
def WroteOnlyRegs (ds : List RegIdx) (n : Nat) (s t : State) : Prop :=
  t.pc = s.pc + BitVec.ofNat 9 n ∧ SameRegsExcept ds s t ∧ t.flags = s.flags ∧ SameStatus s t ∧
    SameMem s t ∧ t.out = s.out

/-! ### Which registers an instruction reads and writes (10_state.md R17) -/

/-- The registers a register operand byte names: one when it is valid, else none. -/
def namedReg (b : Byte) : List RegIdx := if h : b.toNat < 8 then [⟨b.toNat, h⟩] else []

/-- The registers an instruction writes (10_state.md R17, last column). -/
def regsWritten : Instr → List RegIdx
  | .hlt => []
  | .ldi r _ => namedReg r
  | .prn _ => []
  | .add a _ => namedReg a
  | .sub a _ => namedReg a
  | .mul a _ => namedReg a
  | .div a _ => namedReg a
  | .cmp _ _ => []
  | .push _ => [spIdx]
  | .pop r => spIdx :: namedReg r
  | .call _ => [spIdx]
  | .ret => [spIdx]
  | .jmp _ => []
  | .jeq _ => []
  | .jne _ => []

/-- The registers an instruction reads in a state (10_state.md R17, middle column): JEQ and JNE read
their register only when the jump is taken. -/
def regsRead (s : State) : Instr → List RegIdx
  | .hlt => []
  | .ldi _ _ => []
  | .prn r => namedReg r
  | .add a b => namedReg a ++ namedReg b
  | .sub a b => namedReg a ++ namedReg b
  | .mul a b => namedReg a ++ namedReg b
  | .div a b => namedReg a ++ namedReg b
  | .cmp a b => namedReg a ++ namedReg b
  | .push r => spIdx :: namedReg r
  | .pop _ => [spIdx]
  | .call r => spIdx :: namedReg r
  | .ret => [spIdx]
  | .jmp r => namedReg r
  | .jeq r => if s.flags.equal then namedReg r else []
  | .jne r => if s.flags.equal then [] else namedReg r

/-! ### The fault a step must take (60_exceptions.md R93) -/

/-- The value of the register an operand byte names (0 where it names none, which the callers rule
out). -/
def State.regAt (s : State) (b : Byte) : Byte := if h : b.toNat < 8 then s.reg ⟨b.toNat, h⟩ else 0

/-- The fault of the execute stage, if any: CALL's return address, DIV's divisor, the unset flags
(60_exceptions.md R93 (5)). -/
def executeFault (m : Mnemonic) (opb : Byte) (s : State) : Option Raise :=
  match m with
  | .call => if 255 < s.pc.toNat + 2 then some ⟨.outOfRange, s.pc + 2⟩ else none
  | .div => if s.regAt opb = 0 then some ⟨.divisionByZero, zext9 opb⟩ else none
  | .jeq => if s.flags.valid then none else some ⟨.flagsUninitialized, 0⟩
  | .jne => if s.flags.valid then none else some ⟨.flagsUninitialized, 0⟩
  | .hlt | .ldi | .prn | .add | .sub | .mul | .cmp | .push | .pop | .ret | .jmp => none

/-- The first fault, in the order of 60_exceptions.md R93, of a step begun in `s`, read straight
from the bytes at `pc`: opcode fetch, decode, operand fetches, register operands, execute stage. -/
def firstFault (opc : Mnemonic → Byte) (s : State) : Option Raise :=
  let pc := s.pc.toNat
  if 255 < pc then some ⟨.outOfRange, s.pc⟩
  else
    match lookupOpcode opc (s.mem.read pc) with
    | none => some ⟨.unknownOpcode, zext9 (s.mem.read pc)⟩
    | some m =>
      let opa := s.mem.read (pc + 1)
      let opb := s.mem.read (pc + 2)
      if 1 ≤ m.format.operandCount ∧ 255 < pc + 1 then some ⟨.outOfRange, s.pc + 1⟩
      else if m.format.operandCount = 2 ∧ 255 < pc + 2 then some ⟨.outOfRange, s.pc + 2⟩
      else if m.format ≠ .n ∧ 7 < opa.toNat then some ⟨.outOfRange, zext9 opa⟩
      else if m.format = .rr ∧ 7 < opb.toNat then some ⟨.outOfRange, zext9 opb⟩
      else executeFault m opb s

/-! ### The invariant (10_state.md R32) -/

/-- Exactly one of the three flags is set (10_state.md R22). -/
def Flags.ExactlyOne (f : Flags) : Prop :=
  (f.equal = true ∧ f.less = false ∧ f.greater = false) ∨
  (f.equal = false ∧ f.less = true ∧ f.greater = false) ∨
  (f.equal = false ∧ f.less = false ∧ f.greater = true)

/-- What holds in every state a run reaches (10_state.md R32), under the default opcode map. -/
structure State.Inv (s : State) : Prop where
  /-- memory keeps its canonical form, so every cell lies at 0 to 255 (R32 (c)) -/
  mem_wf : s.mem.wf = true
  /-- the program counter is 0 to 256 (R32 (b)) -/
  pc_le : s.pc.toNat ≤ 256
  /-- valid flags are exactly one of Equal, Less, Greater (R32 (d)) -/
  flags_valid : s.flags.valid = true → s.flags.ExactlyOne
  /-- unset flags are stored as 0 (R31) -/
  flags_unset : s.flags.valid = false → s.flags = Flags.unset
  /-- a halted engine's `pc` is the address of a HLT (R32 (f)) -/
  halted_at_hlt : s.run = .halted → s.pc.toNat < 256 ∧ s.mem.read s.pc.toNat = defaultOpc .hlt
  /-- a fault is recorded exactly when the engine is `Faulted` (R32 (g)) -/
  cleared : s.run ≠ .faulted → s.fault = FaultRecord.cleared
  /-- a faulted engine records the fault its frozen state calls for, and where (R32 (g), R94,
  R95) -/
  recorded : s.run = .faulted →
    firstFault defaultOpc s = some ⟨s.fault.cause, s.fault.info⟩ ∧ s.fault.pc = s.pc

end Sys2Proof.Machine
end

