-- ==== Sys2Proof/WellFormed.lean ====
section
/-! DEFINITION. Which instructions are well formed: every register operand byte is 0 to 7
(10_state.md R16, 30_encoding.md R54). LDI's immediate is never checked (30_encoding.md R55). -/

namespace Sys2Proof

/-- A byte names a register when it is 0 to 7; its upper five bits are not ignored
(30_encoding.md R54). -/
def isRegByte (b : Byte) : Bool := decide (b.toNat < 8)

/-- The register operand bytes of an instruction, in the order they are validated
(30_encoding.md R57 stage 4). -/
def Instr.regOperands : Instr → List Byte
  | .hlt => []
  | .ldi r _ => [r]
  | .prn r => [r]
  | .add a b => [a, b]
  | .sub a b => [a, b]
  | .mul a b => [a, b]
  | .div a b => [a, b]
  | .cmp a b => [a, b]
  | .push r => [r]
  | .pop r => [r]
  | .call r => [r]
  | .ret => []
  | .jmp r => [r]
  | .jeq r => [r]
  | .jne r => [r]

/-- An instruction is well formed when each of its register operand bytes names a register. -/
def Instr.wf (i : Instr) : Bool := i.regOperands.all isRegByte

/-- The register operand byte an ill-formed instruction is turned away for: the first one that
names no register (60_exceptions.md R93 (4)). -/
def Instr.firstBadOperand (i : Instr) : Option Byte := i.regOperands.find? (fun b => !isRegByte b)

end Sys2Proof
end

