-- ==== Sys2Proof/Certificates/Slice0/Obligations.lean ====
section
/-! DEFINITION. The statements for the provers. Each docstring says which rule of spec/ the statement
formalises, and where it rests on a choice of the model's, which log entry that is. -/

open Sys2Proof Sys2Proof.Machine

/-! ### Encoding and decoding -/

/-- 30_encoding.md R49 to R51, for every injective opcode map (00_scope.md R10): decoding an
instruction's bytes, whatever follows them, gives the instruction and what follows. Every operand
byte is covered, those that name no register included. -/
def Obligations.DecodeUndoesEncode : Prop :=
  ∀ opc : Mnemonic → Byte, OpcInjective opc → ∀ (i : Instr) (rest : List Byte),
    decode opc (encode opc i ++ rest) = .ok (i, rest)

/-- 30_encoding.md R50, R51: the decoder drops no bit and invents none. Bytes that decode are the
encoding of what they decode to, followed by the rest. -/
def Obligations.EncodeUndoesDecode : Prop :=
  ∀ (opc : Mnemonic → Byte) (bytes : List Byte) (i : Instr) (rest : List Byte),
    decode opc bytes = .ok (i, rest) → bytes = encode opc i ++ rest

/-- 30_encoding.md R49, R51: the opcode byte alone settles the mnemonic and the length, 1, 2 or 3
bytes; the operand bytes are taken as they come, and the decoder names the first one missing. -/
def Obligations.LengthIsFoundFromTheOpcodeByte : Prop :=
  ∀ (opc : Mnemonic → Byte) (op : Byte) (m : Mnemonic) (bytes : List Byte),
    lookupOpcode opc op = some m →
      (m.format.operandCount ≤ bytes.length →
        ∃ i, decode opc (op :: bytes) = .ok (i, bytes.drop m.format.operandCount) ∧
          i.mnemonic = m ∧ i.operandBytes = bytes.take m.format.operandCount ∧
          i.length = 1 + m.format.operandCount ∧ 1 ≤ i.length ∧ i.length ≤ 3) ∧
      (bytes.length < m.format.operandCount →
        decode opc (op :: bytes) = .error (.missingOperand (bytes.length + 1)))

/-- 30_encoding.md R56 and 60_exceptions.md R90, for every opcode map: a byte that is none of the
map's opcode bytes is the fault `UnknownOpcode` with the byte recorded; nothing else changes. Under
the default map 241 byte values are such, `0x00` among them. -/
def Obligations.UnknownOpcodeByteFaults : Prop :=
  (∀ (opc : Mnemonic → Byte) (s : State), s.run = .running → s.pc.toNat ≤ 255 →
    (∀ m, opc m ≠ s.mem.read s.pc.toNat) →
      stepWith opc s = .next { s with
        run := .faulted
        fault := ⟨.unknownOpcode, zext9 (s.mem.read s.pc.toNat), s.pc⟩ }) ∧
  ((List.range 256).filter (fun n => (lookupOpcode defaultOpc (BitVec.ofNat 8 n)).isNone)).length = 241 ∧
  lookupOpcode defaultOpc 0 = none

/-- Bytes written out from the encodings of 30_encoding.md R50 and R52 decode to the instructions
they stand for. All but LDI's opcode byte are the default of the parameter `OPC`, PRESUMED
(log 2). -/
def Obligations.SpecBytesDecode : Prop :=
  decode defaultOpc [0b10000010, 0, 8] = .ok (.ldi 0 8, []) ∧
  decode defaultOpc [0b10100010, 0, 1] = .ok (.mul 0 1, []) ∧
  decode defaultOpc [0b01000111, 0] = .ok (.prn 0, []) ∧
  decode defaultOpc [0b00000001] = .ok (.hlt, []) ∧
  decode defaultOpc [0b01000101, 7, 0b01000110, 1] = .ok (.push 7, [0b01000110, 1]) ∧
  decode defaultOpc [0b01010000, 1] = .ok (.call 1, []) ∧
  decode defaultOpc [0b01010101, 2] = .ok (.jeq 2, []) ∧
  decode defaultOpc [0b10100111, 0] = .error (.missingOperand 2)

/-! ### One step -/

/-- 30_encoding.md R57: when the bytes from `pc` on are the bytes of instruction `i`, all of them in
memory, a step of a running machine is `exec i`; `step` adds nothing around it. -/
def Obligations.StepRunsTheInstructionAtPc : Prop :=
  ∀ (s : State) (i : Instr), s.run = .running → s.pc.toNat + i.length ≤ 256 →
    (∀ k, k < i.length → (encode defaultOpc i)[k]? = some (s.mem.read (s.pc.toNat + k))) →
      step s = exec i s

/-- 60_exceptions.md R93 (with the causes and `INFO` values of R87, R88): a step of a running machine
that has a fault in the order of R93 takes the first one, and a step that has none completes
without a fault. `firstFault` (Safety.lean) is written from R93 alone, not from the decoder or the
meanings. For every opcode map; `step` is the default one's. -/
def Obligations.StepTakesTheFirstFaultInOrder : Prop :=
  ∀ (opc : Mnemonic → Byte) (s : State), s.run = .running →
    (∀ r, firstFault opc s = some r → stepWith opc s = .next (s.takeFault r)) ∧
    (firstFault opc s = none → ∃ t, stepWith opc s = .next t ∧ t.run ≠ .faulted)

/-- 60_exceptions.md R94: a step that faults changes no register, no flag, no cell of memory, not
`pc` and not `OUT`, and what it does write is `RUN` and a record whose pc is the faulting
instruction's (R95). -/
def Obligations.FaultingStepHasNoOtherEffect : Prop :=
  ∀ s t : State, s.run = .running → step s = .next t → t.run = .faulted →
    (∀ i, t.reg i = s.reg i) ∧ t.flags = s.flags ∧ SameMem s t ∧ t.pc = s.pc ∧ t.out = s.out ∧
    t.fault.pc = s.pc ∧ t.fault.cause ≠ .none

/-- 10_state.md R26: a stopped machine stays as it is, however often it is stepped. That `step`
answers the same state, where the spec says no step is taken, is the model's reading: DEDUCED,
log 4. -/
def Obligations.StoppedMachineStaysAsItIs : Prop :=
  ∀ (k : Nat) (s : State), s.run ≠ .running → Host.Core.run Sys2Proof.core k s = .next s

/-- 40_halt.md R64: HLT sets `RUN` to `Halted` and changes nothing else, `pc` included. A step whose
opcode byte is HLT's does this, at address 255 too, and no other step of a running machine halts
it. -/
def Obligations.HltAloneHaltsAndChangesNothingElse : Prop :=
  (∀ s : State, ∃ t, exec .hlt s = .next t ∧ t.run = .halted ∧ t.fault = s.fault ∧ t.pc = s.pc ∧
    (∀ i, t.reg i = s.reg i) ∧ t.flags = s.flags ∧ SameMem s t ∧ t.out = s.out) ∧
  (∀ opc : Mnemonic → Byte, encode opc .hlt = [opc .hlt]) ∧
  (∀ s t : State, s.run = .running → step s = .next t →
    ((s.pc.toNat ≤ 255 ∧ s.mem.read s.pc.toNat = defaultOpc .hlt) ↔ t.run = .halted)) ∧
  (∀ s t : State, s.run = .running → step s = .next t → t.run = .halted →
    t = { s with run := .halted })

/-- 70_reset_and_hazards.md R117 with 95_test_vectors.md section 4 (1): in a running machine the
step function is total. The statement says more, by the model's reading: no state and no instruction
stops the model, every step and every instruction in every state answering a next state. That a
fault is a next state is log 3 (DEDUCED), and that `step` answers a next state in a stopped machine,
where R26 takes no step, is log 4 (DEDUCED); `exec` in a stopped state is log 9. -/
def Obligations.EveryStepAnswersANextState : Prop :=
  (∀ s : State, ∃ t, step s = .next t) ∧ (∀ (i : Instr) (s : State), ∃ t, exec i s = .next t)

/-! ### Registers -/

/-- 10_state.md R16, 30_encoding.md R54: a register operand byte above 7, the first such of an
instruction, raises `OutOfRange(byte)` before any effect. A byte 0 to 7 is no such operand, in
either place, 7 and twice the same register included. -/
def Obligations.InvalidRegisterOperandFaults : Prop :=
  (∀ (i : Instr) (s : State) (v : Byte), i.firstBadOperand = some v →
    7 < v.toNat ∧ exec i s = .next { s with
      run := .faulted
      fault := ⟨.outOfRange, zext9 v, s.pc⟩ }) ∧
  (∀ i : Instr, i.firstBadOperand = none ↔ ∀ b ∈ i.regOperands, b.toNat ≤ 7)

/-- 10_state.md R17, both columns: an instruction changes no register outside those it writes; and a
register it does not read has no influence: with that register changed beforehand the
instruction ends the same but for that register. -/
def Obligations.RegistersReadAndWrittenFollowTheTable : Prop :=
  (∀ (i : Instr) (s t : State), exec i s = .next t → SameRegsExcept (regsWritten i) s t) ∧
  (∀ (i : Instr) (s t : State) (j : RegIdx) (v : Byte), exec i s = .next t → j ∉ regsRead s i →
    ∃ u, exec i (s.setReg j v) = .next u ∧ SameRegsExcept [j] t u ∧ u.pc = t.pc ∧
      u.flags = t.flags ∧ SameStatus t u ∧ SameMem t u ∧ u.out = t.out)

/-! ### LDI and PRN -/

/-- 41_load_and_print.md R65: LDI completes in every state on every register, 7 included, and every
immediate. -/
def Obligations.LdiWritesItsImmediate : Prop :=
  ∀ (r : RegIdx) (imm : Byte) (s : State), ∃ t,
    exec (.ldi (regByte r) imm) s = .next t ∧ t.reg r = imm ∧ WroteOnlyRegs [r] 3 s t

/-- 41_load_and_print.md R66: PRN completes in every state on every register and appends its value
to `OUT`. -/
def Obligations.PrnAppendsItsRegister : Prop :=
  ∀ (r : RegIdx) (s : State), ∃ t,
    exec (.prn (regByte r)) s = .next t ∧ t.out = s.out ++ [s.reg r] ∧ t.pc = s.pc + 2 ∧
      SameRegsExcept [] s t ∧ t.flags = s.flags ∧ SameStatus s t ∧ SameMem s t

/-! ### The ALU -/

/-- 42_alu.md R69, R70, R71: ADD, SUB and MUL complete in every state on every two registers, the
same one twice included, write the result modulo 256 to the first, and change nothing else but
`pc`. -/
def Obligations.AddSubMulWriteTheResultModulo256 : Prop :=
  ∀ (a b : RegIdx) (s : State),
    (∃ t, exec (.add (regByte a) (regByte b)) s = .next t ∧
      (t.reg a).toNat = ((s.reg a).toNat + (s.reg b).toNat) % 256 ∧ WroteOnlyRegs [a] 3 s t) ∧
    (∃ t, exec (.sub (regByte a) (regByte b)) s = .next t ∧
      ((t.reg a).toNat : Int) = ((s.reg a).toNat - (s.reg b).toNat : Int) % 256 ∧
      WroteOnlyRegs [a] 3 s t) ∧
    (∃ t, exec (.mul (regByte a) (regByte b)) s = .next t ∧
      (t.reg a).toNat = ((s.reg a).toNat * (s.reg b).toNat) % 256 ∧ WroteOnlyRegs [a] 3 s t)

/-- 42_alu.md R72: DIV by a register that is not 0 completes and writes the floor of the unsigned
quotient; by a register that is 0 it raises `DivisionByZero` with that register's index, and
nothing else changes. -/
def Obligations.DivWritesTheQuotientOrFaults : Prop :=
  ∀ (a b : RegIdx) (s : State),
    ((s.reg b).toNat ≠ 0 → ∃ t, exec (.div (regByte a) (regByte b)) s = .next t ∧
      (t.reg a).toNat * (s.reg b).toNat ≤ (s.reg a).toNat ∧
      (s.reg a).toNat < ((t.reg a).toNat + 1) * (s.reg b).toNat ∧ WroteOnlyRegs [a] 3 s t) ∧
    ((s.reg b).toNat = 0 → exec (.div (regByte a) (regByte b)) s = .next { s with
      run := .faulted
      fault := ⟨.divisionByZero, BitVec.ofNat 9 b.val, s.pc⟩ })

/-- 42_alu.md R73: CMP completes in every state, sets each of the three flags by the unsigned
comparison, the one that holds and the two that do not, sets the latch, and writes no
register. -/
def Obligations.CmpSetsExactlyOneFlag : Prop :=
  ∀ (a b : RegIdx) (s : State), ∃ t, exec (.cmp (regByte a) (regByte b)) s = .next t ∧
    (t.flags.equal = true ↔ (s.reg a).toNat = (s.reg b).toNat) ∧
    (t.flags.less = true ↔ (s.reg a).toNat < (s.reg b).toNat) ∧
    (t.flags.greater = true ↔ (s.reg b).toNat < (s.reg a).toNat) ∧
    t.flags.valid = true ∧ t.flags.ExactlyOne ∧
    t.pc = s.pc + 3 ∧ SameRegsExcept [] s t ∧ SameStatus s t ∧ SameMem s t ∧ t.out = s.out

/-- 42_alu.md R75: ADD then SUB of the same two different registers restores the first for every
pair of values, across a wrap too, and SUB of a register from itself clears it. -/
def Obligations.SubUndoesAdd : Prop :=
  (∀ (a b : RegIdx) (s : State), a ≠ b → ∃ t u,
    exec (.add (regByte a) (regByte b)) s = .next t ∧
    exec (.sub (regByte a) (regByte b)) t = .next u ∧ ∀ i, u.reg i = s.reg i) ∧
  (∀ (a : RegIdx) (s : State), ∃ t,
    exec (.sub (regByte a) (regByte a)) s = .next t ∧ (t.reg a).toNat = 0)

/-! ### The stack -/

/-- 43_stack.md R76, R77: PUSH completes in every state on every register, takes `SP` down by one
modulo 256, stores the register, read after the decrement, at the new `SP`, and changes no other
cell and no other register. -/
def Obligations.PushStoresBelowTheStackPointer : Prop :=
  ∀ (r : RegIdx) (s : State), ∃ t, exec (.push (regByte r)) s = .next t ∧
    s.decrementSp.sp.toNat = (s.sp.toNat + 255) % 256 ∧ t.sp = s.decrementSp.sp ∧
    t.mem.read s.decrementSp.sp.toNat = (if r = spIdx then s.decrementSp.sp else s.reg r) ∧
    SameMemExcept s.decrementSp.sp.toNat s t ∧ SameRegsExcept [spIdx] s t ∧
    t.pc = s.pc + 2 ∧ t.flags = s.flags ∧ SameStatus s t ∧ t.out = s.out

/-- 43_stack.md R76, R78: POP completes in every state on every register, loads the byte at `SP`, and
takes `SP` up by one modulo 256; where the destination is `SP` itself the increment follows the
load. Memory is not written. -/
def Obligations.PopLoadsFromTheStackPointer : Prop :=
  ∀ (r : RegIdx) (s : State), ∃ t, exec (.pop (regByte r)) s = .next t ∧
    (r ≠ spIdx → t.reg r = s.mem.read s.sp.toNat ∧ t.sp.toNat = (s.sp.toNat + 1) % 256) ∧
    (r = spIdx → t.sp.toNat = ((s.mem.read s.sp.toNat).toNat + 1) % 256) ∧
    WroteOnlyRegs [spIdx, r] 2 s t

/-- 43_stack.md R77, R78 (the source's property c, 95_test_vectors.md S4): PUSH then POP, on
registers other than `SP`, moves the value, restores `SP` and leaves every other register
alone. -/
def Obligations.PopUndoesPush : Prop :=
  ∀ (a b : RegIdx) (s : State), a ≠ spIdx → b ≠ spIdx → ∃ t u,
    exec (.push (regByte a)) s = .next t ∧ exec (.pop (regByte b)) t = .next u ∧
    u.reg b = s.reg a ∧ u.sp = s.sp ∧ SameRegsExcept [b] s u

/-- 20_memory.md R42: `SP` wraps modulo 256 at both ends of memory, for PUSH and CALL down and for
POP and RET up, and no access at `SP` raises a fault: PUSH, POP and RET never fault on a register
operand, and CALL only for its return address. -/
def Obligations.StackPointerWrapsWithoutAFault : Prop :=
  (∀ (r : RegIdx) (s t : State), s.sp.toNat = 0 → exec (.push (regByte r)) s = .next t →
    t.sp.toNat = 255 ∧ t.mem.read 255 = s.decrementSp.reg r ∧ SameMemExcept 255 s t) ∧
  (∀ (r : RegIdx) (s t : State), s.sp.toNat = 0 → s.pc.toNat + 2 ≤ 255 →
    exec (.call (regByte r)) s = .next t →
    t.sp.toNat = 255 ∧ (t.mem.read 255).toNat = s.pc.toNat + 2 ∧ SameMemExcept 255 s t) ∧
  (∀ (r : RegIdx) (s t : State), s.sp.toNat = 255 → r ≠ spIdx → exec (.pop (regByte r)) s = .next t →
    t.reg r = s.mem.read 255 ∧ t.sp.toNat = 0) ∧
  (∀ s t : State, s.sp.toNat = 255 → exec .ret s = .next t →
    t.pc = zext9 (s.mem.read 255) ∧ t.sp.toNat = 0) ∧
  (∀ (r : RegIdx) (s t : State),
    exec (.push (regByte r)) s = .next t ∨ exec (.pop (regByte r)) s = .next t ∨
      exec .ret s = .next t ∨ (s.pc.toNat + 2 ≤ 255 ∧ exec (.call (regByte r)) s = .next t) →
    SameStatus s t)

/-! ### Control transfer -/

/-- 44_control_transfer.md R80: CALL whose return address is a memory address pushes `pc + 2` and
jumps to its register, read after the decrement; otherwise it raises `OutOfRange(pc + 2)` before
`SP` or memory change. (`pc + 2` is 256 in every state a step reaches CALL in.) -/
def Obligations.CallPushesTheReturnAddressAndJumps : Prop :=
  ∀ (r : RegIdx) (s : State),
    (s.pc.toNat + 2 ≤ 255 → ∃ t, exec (.call (regByte r)) s = .next t ∧
      s.decrementSp.sp.toNat = (s.sp.toNat + 255) % 256 ∧ t.sp = s.decrementSp.sp ∧
      (t.mem.read s.decrementSp.sp.toNat).toNat = s.pc.toNat + 2 ∧
      SameMemExcept s.decrementSp.sp.toNat s t ∧
      t.pc = zext9 (if r = spIdx then s.decrementSp.sp else s.reg r) ∧
      SameRegsExcept [spIdx] s t ∧ t.flags = s.flags ∧ SameStatus s t ∧ t.out = s.out) ∧
    (255 < s.pc.toNat + 2 → exec (.call (regByte r)) s = .next { s with
      run := .faulted
      fault := ⟨.outOfRange, s.pc + 2, s.pc⟩ })

/-- 44_control_transfer.md R81: RET completes in every state: `pc` takes the byte at `SP`, `SP` goes
up by one modulo 256, nothing else changes. -/
def Obligations.RetPopsThePc : Prop :=
  ∀ s : State, ∃ t, exec .ret s = .next t ∧
    t.pc.toNat = (s.mem.read s.sp.toNat).toNat ∧ t.sp.toNat = (s.sp.toNat + 1) % 256 ∧
    SameRegsExcept [spIdx] s t ∧ t.flags = s.flags ∧ SameStatus s t ∧ SameMem s t ∧ t.out = s.out

/-- 44_control_transfer.md R80, R81 (the source's property d, 95_test_vectors.md S4): a CALL at
`pc`, through a register other than `SP`, to an address that holds a RET which the pushed return
address does not overwrite: two steps later `pc` is behind the CALL and every register, `SP`
included, is restored. -/
def Obligations.RetReturnsBehindTheCall : Prop :=
  ∀ (s : State) (r : RegIdx), s.run = .running → s.pc.toNat + 2 ≤ 255 → r ≠ spIdx →
    s.mem.read s.pc.toNat = defaultOpc .call → s.mem.read (s.pc.toNat + 1) = regByte r →
    s.mem.read (s.reg r).toNat = defaultOpc .ret → (s.reg r).toNat ≠ s.decrementSp.sp.toNat →
      ∃ t u, step s = .next t ∧ step t = .next u ∧
        t.pc = zext9 (s.reg r) ∧ u.pc.toNat = s.pc.toNat + 2 ∧ (∀ i, u.reg i = s.reg i) ∧
        u.flags = s.flags ∧ SameStatus s u ∧ u.out = s.out

/-- 44_control_transfer.md R82: JMP completes in every state, `pc` takes the register's value, and
nothing else changes. -/
def Obligations.JmpGoesToItsRegister : Prop :=
  ∀ (r : RegIdx) (s : State), ∃ t, exec (.jmp (regByte r)) s = .next t ∧
    t.pc.toNat = (s.reg r).toNat ∧ SameRegsExcept [] s t ∧ t.flags = s.flags ∧ SameStatus s t ∧
    SameMem s t ∧ t.out = s.out

/-- 44_control_transfer.md R83, R84: once the flags are valid JEQ and JNE complete in every state:
exactly one of the two is taken, JEQ when Equal is set; taken goes to the register's value, not
taken to `pc + 2`; nothing but `pc` changes. -/
def Obligations.JeqJneFollowTheEqualFlag : Prop :=
  ∀ (r : RegIdx) (s : State), s.flags.valid = true → ∃ t u,
    exec (.jeq (regByte r)) s = .next t ∧ exec (.jne (regByte r)) s = .next u ∧
    (s.flags.equal = true → t.pc = zext9 (s.reg r) ∧ u.pc = s.pc + 2) ∧
    (s.flags.equal = false → t.pc = s.pc + 2 ∧ u.pc = zext9 (s.reg r)) ∧
    (SameRegsExcept [] s t ∧ t.flags = s.flags ∧ SameStatus s t ∧ SameMem s t ∧ t.out = s.out) ∧
    (SameRegsExcept [] s u ∧ u.flags = s.flags ∧ SameStatus s u ∧ SameMem s u ∧ u.out = s.out)

/-- 60_exceptions.md R91: JEQ and JNE executed while no compare has run raise `FlagsUninitialized`,
after the register operand has been validated and whichever way the jump would have gone; and once
the flags are valid no step of any number of steps records that fault. -/
def Obligations.CondJumpsFaultUntilACompareHasRun : Prop :=
  (∀ (r : RegIdx) (s : State), s.flags.valid = false →
    exec (.jeq (regByte r)) s = .next { s with
      run := .faulted
      fault := ⟨.flagsUninitialized, 0, s.pc⟩ } ∧
    exec (.jne (regByte r)) s = .next { s with
      run := .faulted
      fault := ⟨.flagsUninitialized, 0, s.pc⟩ }) ∧
  (∀ (r : Byte) (s : State), 7 < r.toNat →
    exec (.jeq r) s = .next (s.takeFault ⟨.outOfRange, zext9 r⟩) ∧
    exec (.jne r) s = .next (s.takeFault ⟨.outOfRange, zext9 r⟩)) ∧
  (∀ (k : Nat) (s t : State), s.flags.valid = true → s.fault.cause ≠ .flagsUninitialized →
    Host.Core.run Sys2Proof.core k s = .next t → t.fault.cause ≠ .flagsUninitialized)

/-! ### The program counter -/

/-- 10_state.md R20, the whole table: the length of each instruction in bytes, `pc` after it in a
running machine, and `pc` unchanged when the instruction faults. -/
def Obligations.PcAfterEachInstruction : Prop :=
  (∀ (opc : Mnemonic → Byte) (i : Instr), (encode opc i).length =
    match i with
    | .hlt | .ret => 1
    | .ldi _ _ | .add _ _ | .sub _ _ | .mul _ _ | .div _ _ | .cmp _ _ => 3
    | .prn _ | .push _ | .pop _ | .call _ | .jmp _ | .jeq _ | .jne _ => 2) ∧
  ∀ (i : Instr) (s t : State), s.run = .running → exec i s = .next t →
    (t.run = .faulted → t.pc = s.pc) ∧
    (t.run ≠ .faulted → t.pc =
      match i with
      | .hlt => s.pc
      | .ldi _ _ | .add _ _ | .sub _ _ | .mul _ _ | .div _ _ | .cmp _ _ => s.pc + 3
      | .prn _ | .push _ | .pop _ => s.pc + 2
      | .call r => zext9 (s.decrementSp.regAt r)
      | .ret => zext9 (s.mem.read s.sp.toNat)
      | .jmp r => zext9 (s.regAt r)
      | .jeq r => if s.flags.equal then zext9 (s.regAt r) else s.pc + 2
      | .jne r => if s.flags.equal then s.pc + 2 else zext9 (s.regAt r))

/-- 10_state.md R21: `pc` does not wrap. From a `pc` of at most 256 a step leaves one of at most 256;
an instruction that is no transfer moves `pc` on by its length as a number, and so does a JEQ or JNE
that is not taken, by 2; CALL, RET, JMP and a taken JEQ or JNE go to 0 to 255; and at 256 the fetch
raises `OutOfRange(256)`. -/
def Obligations.PcDoesNotWrap : Prop :=
  (∀ s t : State, s.pc.toNat ≤ 256 → step s = .next t → t.pc.toNat ≤ 256 ∧
    (t.pc = s.pc ∨ t.pc.toNat ≤ 255 ∨
      ∃ i, s.fetch defaultOpc = .ok i ∧ t.pc.toNat = s.pc.toNat + i.length)) ∧
  (∀ (s t : State) (i : Instr), s.pc.toNat ≤ 256 → s.run = .running → s.fetch defaultOpc = .ok i →
    step s = .next t → t.run = .running →
    (i.mnemonic ∉ [Mnemonic.call, .ret, .jmp, .jeq, .jne] → t.pc.toNat = s.pc.toNat + i.length) ∧
    (i.mnemonic = .jeq → s.flags.equal = false → t.pc.toNat = s.pc.toNat + 2) ∧
    (i.mnemonic = .jne → s.flags.equal = true → t.pc.toNat = s.pc.toNat + 2) ∧
    (i.mnemonic ∈ [Mnemonic.call, .ret, .jmp] → t.pc.toNat ≤ 255) ∧
    (i.mnemonic = .jeq → s.flags.equal = true → t.pc.toNat ≤ 255) ∧
    (i.mnemonic = .jne → s.flags.equal = false → t.pc.toNat ≤ 255)) ∧
  (∀ s : State, s.run = .running → s.pc = 256 → step s = .next { s with
    run := .faulted
    fault := ⟨.outOfRange, 256, 256⟩ })

/-! ### Flags -/

/-- 10_state.md R23: only CMP writes a flag, and only JEQ and JNE read one, and of the flags they
read Equal and the latch alone: with the flags changed beforehand, in any way for another
instruction, in Less and Greater for those two, an instruction ends the same but for the
flags. CMP writes all three and sets the latch: nothing of the earlier flags survives it. -/
def Obligations.OnlyCmpWritesAndOnlyJumpsReadFlags : Prop :=
  (∀ (i : Instr) (s t : State), i.mnemonic ≠ .cmp → exec i s = .next t → t.flags = s.flags) ∧
  (∀ (i : Instr) (s t : State) (f : Flags), exec i s = .next t →
    (i.mnemonic ≠ .jeq ∧ i.mnemonic ≠ .jne) ∨
      (f.equal = s.flags.equal ∧ f.valid = s.flags.valid) →
    ∃ u, exec i { s with flags := f } = .next u ∧ (∀ j, u.reg j = t.reg j) ∧ u.pc = t.pc ∧
      SameStatus t u ∧ SameMem t u ∧ u.out = t.out) ∧
  (∀ (a b : RegIdx) (s : State) (f : Flags), ∃ t u,
    exec (.cmp (regByte a) (regByte b)) s = .next t ∧
    exec (.cmp (regByte a) (regByte b)) { s with flags := f } = .next u ∧
    u.flags = t.flags ∧ t.flags.valid = true ∧ t.flags.ExactlyOne)

/-- 10_state.md R24: the flags-valid latch is 0 after reset, set by every CMP, and cleared by no
step; a step that sets it executes a CMP; while it is 0 the conditional jumps are rejected; and it
is seen only through that fault: an instruction that does not end in it ends the same, but for the
latch, when the latch is set beforehand. -/
def Obligations.FlagsValidLatchIsSetByCmpAndNeverCleared : Prop :=
  (∀ (spInit : Byte) (image : List Byte) (s : State),
    State.launch spInit image = .ok s → s.flags.valid = false) ∧
  (∀ (a b : RegIdx) (s : State), ∃ t,
    exec (.cmp (regByte a) (regByte b)) s = .next t ∧ t.flags.valid = true) ∧
  (∀ s t : State, step s = .next t → s.flags.valid = true → t.flags.valid = true) ∧
  (∀ s t : State, step s = .next t → s.flags.valid = false → t.flags.valid = true →
    s.mem.read s.pc.toNat = defaultOpc .cmp) ∧
  (∀ (r : RegIdx) (s : State), s.flags.valid = false → ∃ t u,
    exec (.jeq (regByte r)) s = .next t ∧ t.fault.cause = .flagsUninitialized ∧
    exec (.jne (regByte r)) s = .next u ∧ u.fault.cause = .flagsUninitialized) ∧
  (∀ (i : Instr) (s t : State), exec i s = .next t → t.fault.cause ≠ .flagsUninitialized →
    exec i { s with flags := { s.flags with valid := true } } =
      .next { t with flags := { t.flags with valid := true } })

/-! ### Memory -/

/-- 20_memory.md R34: the memory contract. Addresses 0 to 255 can be read and written, a write is
read back and leaves every other cell and everything but memory alone; any other address raises
`OutOfRange` of that address (which `FAULT.INFO`, 9 bits wide by log 11, holds up to 511). -/
def Obligations.MemoryReadsAndWritesFollowTheContract : Prop :=
  ∀ (s : State) (a : Nat) (v : Byte),
    (a ≤ 255 → s.memRead a = .ok (s.mem.read a) ∧
      ∃ t, s.memWrite a v = .ok t ∧ t.memRead a = .ok v ∧
        (∀ b, b ≤ 255 → b ≠ a → t.memRead b = s.memRead b) ∧
        (∀ i, t.reg i = s.reg i) ∧ t.pc = s.pc ∧ t.flags = s.flags ∧ SameStatus s t ∧
        t.out = s.out) ∧
    (255 < a → ∃ r, s.memRead a = .error r ∧ s.memWrite a v = .error r ∧ r.cause = .outOfRange ∧
      (a ≤ 511 → r.info.toNat = a))

/-- 20_memory.md R35 (the writes column), 10_state.md R29: a step changes memory only when its opcode
is PUSH's or CALL's, and then in the one cell below `SP`. -/
def Obligations.OnlyPushAndCallWriteOneCell : Prop :=
  ∀ s t : State, step s = .next t →
    SameMem s t ∨
    (s.run = .running ∧ SameMemExcept s.decrementSp.sp.toNat s t ∧
      (s.mem.read s.pc.toNat = defaultOpc .push ∨ s.mem.read s.pc.toNat = defaultOpc .call))

/-- 20_memory.md R46: a byte stored by PUSH, or by a CALL that completes, is what the very next fetch
sees in that cell, and every other byte the fetch looks at is the old one. -/
def Obligations.PushedByteIsSeenByTheNextFetch : Prop :=
  (∀ (r : RegIdx) (s t : State) (k : Nat), exec (.push (regByte r)) s = .next t → k < 3 →
    t.pc.toNat + k ≤ 255 →
      t.window[k]? = some (if t.pc.toNat + k = s.decrementSp.sp.toNat then s.decrementSp.reg r
        else s.mem.read (t.pc.toNat + k))) ∧
  (∀ (r : RegIdx) (s t : State) (k : Nat), s.pc.toNat + 2 ≤ 255 →
    exec (.call (regByte r)) s = .next t → k < 3 → t.pc.toNat + k ≤ 255 →
      t.window[k]? = some (if t.pc.toNat + k = s.decrementSp.sp.toNat
        then BitVec.ofNat 8 (s.pc.toNat + 2) else s.mem.read (t.pc.toNat + k)))

/-! ### The observation channel -/

/-- 10_state.md R28: `OUT` is empty at reset; PRN appends its register's value; a step leaves it
alone or, when its opcode is PRN's, appends that one value; and no instruction reads it: with other
contents beforehand an instruction ends the same but for `OUT`. -/
def Obligations.OnlyPrnAppendsToOutAndNothingReadsIt : Prop :=
  (∀ (spInit : Byte) (image : List Byte) (s : State),
    State.launch spInit image = .ok s → s.out = []) ∧
  (∀ (r : RegIdx) (s : State), ∃ t,
    exec (.prn (regByte r)) s = .next t ∧ t.out = s.out ++ [s.reg r]) ∧
  (∀ s t : State, step s = .next t → t.out = s.out ∨
    (s.run = .running ∧ s.mem.read s.pc.toNat = defaultOpc .prn ∧
      ∃ r : RegIdx, s.mem.read (s.pc.toNat + 1) = regByte r ∧ t.out = s.out ++ [s.reg r])) ∧
  (∀ (i : Instr) (s t : State) (o : List Byte), exec i s = .next t →
    ∃ u, exec i { s with out := o } = .next u ∧ (∀ j, u.reg j = t.reg j) ∧ u.pc = t.pc ∧
      u.flags = t.flags ∧ SameStatus t u ∧ SameMem t u)

/-- 10_state.md R32 (h): over any number of steps what `OUT` held stays at its front. -/
def Obligations.OutOnlyGrowsAlongARun : Prop :=
  ∀ (k : Nat) (s t : State), Host.Core.run Sys2Proof.core k s = .next t → s.out <+: t.out

/-! ### Reset and launch -/

/-- 70_reset_and_hazards.md R105 (10_state.md R31), for every `SP_INIT` and every `IMAGE` of at most
256 bytes: the launch state. -/
def Obligations.LaunchGivesTheResetValues : Prop :=
  ∀ (spInit : Byte) (image : List Byte), image.length ≤ 256 →
    ∃ s, State.launch spInit image = .ok s ∧
      (∀ i : RegIdx, i ≠ spIdx → s.reg i = 0) ∧ s.reg spIdx = spInit ∧ s.pc = 0 ∧
      s.flags.valid = false ∧ s.flags.equal = false ∧ s.flags.less = false ∧
      s.flags.greater = false ∧ s.run = .running ∧
      s.fault.cause.code = 0 ∧ s.fault.info = 0 ∧ s.fault.pc = 0 ∧ s.out = [] ∧
      (∀ a, a < image.length → some (s.mem.read a) = image[a]?) ∧
      (∀ a, image.length ≤ a → s.mem.read a = 0)

/-- 70_reset_and_hazards.md R106: an image of more than 256 bytes makes the loader's write to
address 256 fail, so that no launch happens; the empty image is legal, and its first step faults
with `UnknownOpcode(0)` at 0. That `State.reset` is the launch of the empty image with `SP_INIT` at
its default is the model's choice: log 1, log 5. -/
def Obligations.TooLongAnImageDoesNotLaunch : Prop :=
  (∀ (spInit : Byte) (image : List Byte), 256 < image.length →
    State.launch spInit image = .error ⟨.outOfRange, 256⟩) ∧
  State.launch Config.default.spInit [] = .ok State.reset ∧
  (∀ (spInit : Byte) (s : State), State.launch spInit [] = .ok s →
    step s = .next (s.takeFault ⟨.unknownOpcode, 0⟩))

/-! ### Invariants -/

/-- 10_state.md R32: every step keeps the invariant, from every state that meets it. -/
def Obligations.StepKeepsTheInvariant : Prop :=
  ∀ s t : State, s.Inv → step s = .next t → t.Inv

/-- 10_state.md R32: the reset state meets the invariant. -/
def Obligations.ResetMeetsTheInvariant : Prop := State.reset.Inv

/-- 10_state.md R32: every launch state meets the invariant. -/
def Obligations.LaunchMeetsTheInvariant : Prop :=
  ∀ (spInit : Byte) (image : List Byte) (s : State), State.launch spInit image = .ok s → s.Inv

/-- 60_exceptions.md R89: code 3, reserved for `UnsupportedOperation`, is never recorded, by any
instruction or any number of steps from any state that does not hold it already. -/
def Obligations.UnsupportedOperationIsNeverRecorded : Prop :=
  (∀ c : Cause, c.code = 3 ↔ c = .unsupportedOperation) ∧
  (∀ (i : Instr) (s t : State), exec i s = .next t → s.fault.cause.code ≠ 3 →
    t.fault.cause.code ≠ 3) ∧
  (∀ (k : Nat) (s t : State), s.fault.cause.code ≠ 3 →
    Host.Core.run Sys2Proof.core k s = .next t → t.fault.cause.code ≠ 3)

/-! ### Placing an instruction -/

/-- The model's own `State.withFetchWord` (log 10): in a state whose `pc` leaves room for three bytes
the next step runs exactly the instruction the word decodes to, and placing it changes only `RUN`
and those three cells. -/
def Obligations.PlacedWordIsRunByTheNextStep : Prop :=
  ∀ (s : State) (nbits w : Nat) (i : Instr), s.pc.toNat + 2 ≤ 255 →
    decodeTableWord nbits w = some i →
      step (s.withFetchWord nbits w) = exec i (s.withFetchWord nbits w) ∧
      (∀ j, (s.withFetchWord nbits w).reg j = s.reg j) ∧ (s.withFetchWord nbits w).pc = s.pc ∧
      (s.withFetchWord nbits w).flags = s.flags ∧ (s.withFetchWord nbits w).fault = s.fault ∧
      (s.withFetchWord nbits w).out = s.out ∧
      (∀ a, a < s.pc.toNat ∨ s.pc.toNat + 2 < a →
        (s.withFetchWord nbits w).mem.read a = s.mem.read a)

/-! ### The program file -/

/-- 30_encoding.md R61: a file of one byte a line gives exactly those bytes in order, each line being
eight digits with bit 7 leftmost, any whitespace before and after them, and then nothing or `#` and
any comment; a line that holds only whitespace before its comment, or nothing at all, changes nothing
wherever it stands; and any other number of digits is read as a base-2 integer. -/
def Obligations.ProgramFileGivesItsImage : Prop :=
  (∀ rows : List (List Char × Byte × List Char × List Char),
    (∀ r ∈ rows, (∀ c ∈ r.1 ++ r.2.2.1, c.isWhitespace = true) ∧
      (r.2.2.2 = [] ∨ ∃ comment, r.2.2.2 = '#' :: comment)) →
      fileImage (rows.map fun r => r.1 ++ byteDigits r.2.1 ++ r.2.2.1 ++ r.2.2.2) =
        some (rows.map fun r => r.2.1)) ∧
  (∀ (before after : List (List Char)) (blank : List Char),
    (∀ c ∈ uncomment blank, c.isWhitespace = true) →
      fileImage (before ++ blank :: after) = fileImage (before ++ after)) ∧
  (∀ digits : List Bool, digits ≠ [] → digits.foldl (fun n d => 2 * n + d.toNat) 0 < 256 →
    fileImage [digits.map fun d => if d then '1' else '0'] =
      some [BitVec.ofNat 8 (digits.foldl (fun n d => 2 * n + d.toNat) 0)])
end

