-- ==== Sys2Proof/Laws/Decode.lean ====
section
/-! SUPPORT. What the decoder's parts do: looking an opcode up, reading operand bytes, and the
shape of an encoding. -/

namespace Sys2Proof

theorem Mnemonic.mem_all (m : Mnemonic) : m ∈ Mnemonic.all := by cases m <;> decide

/-- A byte looked up is that mnemonic's opcode byte. -/
theorem lookupOpcode_some {opc : Mnemonic → Byte} {b : Byte} {m : Mnemonic}
    (h : lookupOpcode opc b = some m) : opc m = b := by
  simpa using List.find?_some h

/-- A byte is not found exactly when it is no mnemonic's opcode byte. -/
theorem lookupOpcode_none {opc : Mnemonic → Byte} {b : Byte} :
    lookupOpcode opc b = none ↔ ∀ m, opc m ≠ b := by
  simp [lookupOpcode, List.find?_eq_none, Mnemonic.mem_all]

/-- Under an injective map a mnemonic's opcode byte is found as that mnemonic. -/
theorem lookupOpcode_opc {opc : Mnemonic → Byte} (hopc : OpcInjective opc) (m : Mnemonic) :
    lookupOpcode opc (opc m) = some m := by
  cases h : lookupOpcode opc (opc m) with
  | none => exact absurd rfl (lookupOpcode_none.1 h m)
  | some m' => rw [hopc m' m (lookupOpcode_some h)]

/-- The default opcode map gives 15 distinct bytes. -/
theorem defaultOpc_injective : OpcInjective defaultOpc := by
  intro m n
  cases m <;> cases n <;> decide

/-- The default parameters meet what the spec requires of them. -/
theorem default_admissible : Config.default.Admissible := ⟨defaultOpc_injective, rfl⟩

@[simp] theorem default_opc : Config.default.opc = defaultOpc := rfl

theorem Instr.length_operandBytes (i : Instr) :
    i.operandBytes.length = i.mnemonic.format.operandCount := by
  cases i <;> rfl

theorem length_encode (opc : Mnemonic → Byte) (i : Instr) : (encode opc i).length = i.length := by
  simp [encode, Instr.length, i.length_operandBytes, Nat.add_comm]

theorem Instr.length_le (i : Instr) : i.length ≤ 3 := by
  cases i <;> simp [Instr.length, Instr.mnemonic, Mnemonic.format, Format.operandCount]

theorem Mnemonic.mnemonic_build (m : Mnemonic) (a b : Byte) : (m.build a b).mnemonic = m := by
  cases m <;> rfl

/-- What reading an instruction's operand bytes can answer: everything it needs, or the number of
the first byte that is not there. -/
theorem decodeOperands_cases (m : Mnemonic) (bytes : List Byte) :
    (m.format.operandCount = 0 ∧ decodeOperands m m.format.operandCount bytes = .ok (m.build 0 0, bytes)) ∨
    (∃ a rest, m.format.operandCount = 1 ∧ bytes = a :: rest ∧
      decodeOperands m m.format.operandCount bytes = .ok (m.build a 0, rest)) ∨
    (∃ a b rest, m.format.operandCount = 2 ∧ bytes = a :: b :: rest ∧
      decodeOperands m m.format.operandCount bytes = .ok (m.build a b, rest)) ∨
    (1 ≤ m.format.operandCount ∧ bytes = [] ∧
      decodeOperands m m.format.operandCount bytes = .error (.missingOperand 1)) ∨
    (∃ a, m.format.operandCount = 2 ∧ bytes = [a] ∧
      decodeOperands m m.format.operandCount bytes = .error (.missingOperand 2)) := by
  rcases bytes with _ | ⟨a, _ | ⟨b, rest⟩⟩ <;> cases m <;>
    simp [Mnemonic.format, Format.operandCount, decodeOperands]

/-- An instruction with an ill-formed operand has a first one, and a well-formed one has none. -/
theorem Instr.firstBadOperand_none (i : Instr) : i.firstBadOperand = none ↔ i.wf = true := by
  simp [Instr.firstBadOperand, Instr.wf]

end Sys2Proof
end

