-- ==== Sys2Proof/Laws/Memory.lean ====
section
/-! SUPPORT. The laws of memory: reading after writing, and that every memory operation keeps the
canonical form, so that memories that read the same are the same list. -/

namespace Sys2Proof.Machine

/-- Reading after taking a cell off the list. -/
theorem Memory.read_erase (m : Memory) (a b : Nat) :
    (m.erase a).read b = if b = a then Memory.unlisted else m.read b := by
  induction m with
  | nil => simp [Memory.erase, Memory.read]
  | cons c m ih =>
    obtain ⟨k, w⟩ := c
    simp only [Memory.erase] at ih
    by_cases hk : k = a
    · subst hk
      simp only [Memory.erase, List.filter, bne_self_eq_false, Memory.read, ih]
      split <;> rfl
    · have : (k != a) = true := by simpa using hk
      simp only [Memory.erase, List.filter, this, Memory.read, ih]
      split <;> split <;> simp_all

/-- A memory that has taken `a` off the list does not list it. -/
theorem Memory.erase_not_listed (m : Memory) (a : Nat) : ∀ c ∈ m.erase a, c.1 ≠ a := by
  intro c hc
  simp only [Memory.erase, List.mem_filter, bne_iff_ne] at hc
  exact hc.2

/-- Reading after listing a cell. -/
theorem Memory.read_insert (m : Memory) (a b : Nat) (v : Byte) (h : ∀ c ∈ m, c.1 ≠ a) :
    (m.insert a v).read b = if b = a then v else m.read b := by
  induction m with
  | nil => simp [Memory.insert, Memory.read]
  | cons c m ih =>
    obtain ⟨k, w⟩ := c
    have hk : k ≠ a := h (k, w) (by simp)
    have hm : ∀ c ∈ m, c.1 ≠ a := fun c hc => h c (by simp [hc])
    simp only [Memory.insert]
    split
    · simp [Memory.read]
    · simp only [Memory.read, ih hm]
      split <;> split <;> simp_all

/-- Reading after writing: the written byte in that cell, the old byte in every other. -/
theorem Memory.read_write (m : Memory) (a b : Nat) (v : Byte) :
    (m.write a v).read b = if b = a then v else m.read b := by
  unfold Memory.write
  split
  · next hv => rw [Memory.read_erase, hv]
  · rw [Memory.read_insert _ _ _ _ (m.erase_not_listed a), Memory.read_erase]
    split <;> rfl

@[simp] theorem Memory.read_write_same (m : Memory) (a : Nat) (v : Byte) :
    (m.write a v).read a = v := by
  simp [Memory.read_write]

theorem Memory.read_write_ne (m : Memory) {a b : Nat} (v : Byte) (h : b ≠ a) :
    (m.write a v).read b = m.read b := by
  simp [Memory.read_write, h]

theorem Memory.wfFrom_cons (lo a : Nat) (v : Byte) (m : Memory) :
    Memory.wfFrom lo ((a, v) :: m) = true ↔
      lo ≤ a ∧ a < memSize ∧ v ≠ Memory.unlisted ∧ Memory.wfFrom (a + 1) m = true := by
  simp [Memory.wfFrom, and_assoc]

theorem Memory.wfFrom_mono {lo lo' : Nat} {m : Memory} (h : lo' ≤ lo)
    (hm : Memory.wfFrom lo m = true) : Memory.wfFrom lo' m = true := by
  cases m with
  | nil => rfl
  | cons c m =>
    rw [Memory.wfFrom_cons] at hm ⊢
    exact ⟨by omega, hm.2⟩

theorem Memory.wfFrom_erase {lo : Nat} {m : Memory} (a : Nat) (hm : Memory.wfFrom lo m = true) :
    Memory.wfFrom lo (m.erase a) = true := by
  induction m generalizing lo with
  | nil => rfl
  | cons c m ih =>
    obtain ⟨k, w⟩ := c
    rw [Memory.wfFrom_cons] at hm
    obtain ⟨h₁, h₂, h₃, h₄⟩ := hm
    by_cases hk : k = a
    · subst hk
      have : Memory.erase ((k, w) :: m) k = Memory.erase m k := by simp [Memory.erase]
      rw [this]
      exact Memory.wfFrom_mono (by omega) (ih h₄)
    · have : Memory.erase ((k, w) :: m) a = (k, w) :: Memory.erase m a := by simp [Memory.erase, hk]
      rw [this, Memory.wfFrom_cons]
      exact ⟨h₁, h₂, h₃, ih h₄⟩

theorem Memory.wfFrom_insert {lo a : Nat} {v : Byte} {m : Memory} (hlo : lo ≤ a) (ha : a < memSize)
    (hv : v ≠ Memory.unlisted) (hn : ∀ c ∈ m, c.1 ≠ a) (hm : Memory.wfFrom lo m = true) :
    Memory.wfFrom lo (m.insert a v) = true := by
  induction m generalizing lo with
  | nil => exact (Memory.wfFrom_cons lo a v []).2 ⟨hlo, ha, hv, rfl⟩
  | cons c m ih =>
    obtain ⟨k, w⟩ := c
    have hk : k ≠ a := hn (k, w) (by simp)
    rw [Memory.wfFrom_cons] at hm
    obtain ⟨h₁, h₂, h₃, h₄⟩ := hm
    simp only [Memory.insert]
    split
    · simp only [Memory.wfFrom_cons]
      exact ⟨hlo, ha, hv, by omega, h₂, h₃, h₄⟩
    · rw [Memory.wfFrom_cons]
      exact ⟨h₁, h₂, h₃, ih (by omega) (fun c hc => hn c (by simp [hc])) h₄⟩

/-- A write to a cell that exists keeps the canonical form. -/
theorem Memory.wf_write {a : Nat} {m : Memory} (v : Byte) (ha : a < memSize) (hm : m.wf = true) :
    (m.write a v).wf = true := by
  unfold Memory.write
  split
  · exact Memory.wfFrom_erase a hm
  · next hv =>
    exact Memory.wfFrom_insert (Nat.zero_le a) ha hv (m.erase_not_listed a) (Memory.wfFrom_erase a hm)

/-- Storing bytes keeps the canonical form. -/
theorem Memory.wf_storeBytes {m : Memory} (a : Nat) (vs : List Byte) (hm : m.wf = true) :
    (m.storeBytes a vs).wf = true := by
  induction vs generalizing m a with
  | nil => exact hm
  | cons v vs ih =>
    refine ih (a + 1) ?_
    split
    · next ha => exact Memory.wf_write v ha hm
    · exact hm

theorem Memory.read_of_lt {lo a : Nat} {m : Memory} (hm : Memory.wfFrom lo m = true) (h : a < lo) :
    m.read a = Memory.unlisted := by
  induction m generalizing lo with
  | nil => rfl
  | cons c m ih =>
    rw [Memory.wfFrom_cons] at hm
    simp only [Memory.read]
    rw [if_neg (by omega)]
    exact ih hm.2.2.2 (by omega)

/-- A cell past the end of a canonical memory reads as an unlisted one. -/
theorem Memory.read_of_ge {lo a : Nat} {m : Memory} (hm : Memory.wfFrom lo m = true)
    (h : memSize ≤ a) : m.read a = Memory.unlisted := by
  induction m generalizing lo with
  | nil => rfl
  | cons c m ih =>
    rw [Memory.wfFrom_cons] at hm
    simp only [Memory.read]
    rw [if_neg (by omega)]
    exact ih hm.2.2.2

theorem Memory.eq_of_read_from {lo : Nat} {m m' : Memory} (hm : Memory.wfFrom lo m = true)
    (hm' : Memory.wfFrom lo m' = true) (h : ∀ a, m.read a = m'.read a) : m = m' := by
  induction m generalizing lo m' with
  | nil =>
    cases m' with
    | nil => rfl
    | cons c m' =>
      obtain ⟨k, w⟩ := c
      rw [Memory.wfFrom_cons] at hm'
      have := h k
      simp only [Memory.read, if_true] at this
      exact absurd this.symm hm'.2.2.1
  | cons c m ih =>
    obtain ⟨k, w⟩ := c
    rw [Memory.wfFrom_cons] at hm
    obtain ⟨h₁, h₂, h₃, h₄⟩ := hm
    cases m' with
    | nil =>
      have := h k
      simp only [Memory.read, if_true] at this
      exact absurd this h₃
    | cons c' m' =>
      obtain ⟨k', w'⟩ := c'
      rw [Memory.wfFrom_cons] at hm'
      obtain ⟨h₁', h₂', h₃', h₄'⟩ := hm'
      have hk : k = k' := by
        rcases Nat.lt_trichotomy k k' with hlt | heq | hgt
        · have := h k
          simp only [Memory.read, if_true, if_neg (Nat.ne_of_lt hlt)] at this
          rw [Memory.read_of_lt h₄' (by omega)] at this
          exact absurd this h₃
        · exact heq
        · have := h k'
          simp only [Memory.read, if_true, if_neg (Nat.ne_of_lt hgt)] at this
          rw [Memory.read_of_lt h₄ (by omega)] at this
          exact absurd this.symm h₃'
      subst hk
      have hw : w = w' := by simpa [Memory.read] using h k
      subst hw
      congr 1
      refine ih h₄ h₄' fun a => ?_
      by_cases ha : a = k
      · subst ha
        rw [Memory.read_of_lt h₄ (by omega), Memory.read_of_lt h₄' (by omega)]
      · simpa [Memory.read, ha] using h a

/-- Canonical memories that read the same in every cell are the same list. -/
theorem Memory.eq_of_read {m m' : Memory} (hm : m.wf = true) (hm' : m'.wf = true)
    (h : ∀ a, m.read a = m'.read a) : m = m' :=
  Memory.eq_of_read_from hm hm' h

/-- Reading after storing bytes that all have a cell: those bytes there, the old ones elsewhere. -/
theorem Memory.read_storeBytes (vs : List Byte) (m : Memory) (a b : Nat)
    (h : a + vs.length ≤ memSize) :
    (m.storeBytes a vs).read b =
      if a ≤ b ∧ b < a + vs.length then vs[b - a]?.getD 0 else m.read b := by
  induction vs generalizing m a with
  | nil => rw [if_neg (by simp)]; rfl
  | cons v vs ih =>
    rw [List.length_cons] at h
    have ha : a < memSize := by omega
    simp only [Memory.storeBytes, if_pos ha]
    rw [ih _ _ (by omega), Memory.read_write, List.length_cons]
    by_cases hb : b = a
    · subst hb
      simp
    by_cases hb' : a + 1 ≤ b ∧ b < a + 1 + vs.length
    · rw [if_pos hb', if_pos (by omega), show b - a = b - (a + 1) + 1 by omega,
        List.getElem?_cons_succ]
    · rw [if_neg hb', if_neg hb, if_neg (by omega)]

/-- The bytes from `a` up are the cells', as far as memory reaches. -/
theorem Memory.getElem?_bytesFrom (m : Memory) (n a k : Nat) (hk : k < n) (ha : a + k < memSize) :
    (m.bytesFrom n a)[k]? = some (m.read (a + k)) := by
  induction n generalizing a k with
  | zero => omega
  | succ n ih =>
    simp only [Memory.bytesFrom, if_pos (show a < memSize by omega)]
    cases k with
    | zero => simp
    | succ k =>
      rw [List.getElem?_cons_succ, ih (a + 1) k (by omega) (by omega), Nat.add_right_comm]
      rfl

/-- The memory of the reset state is canonical. -/
theorem resetWith_mem_wf (spInit : Byte) : (State.resetWith spInit).mem.wf = true := rfl

end Sys2Proof.Machine
end

