-- ==== Sys2Proof/Laws/State.lean ====
section
/-! SUPPORT. One lemma per field of `State` per update of Machine/Ops.lean, each true by `rfl`, and
the read-after-write laws of the register file. -/

namespace Sys2Proof.Machine

section Fields

variable (s : State) (i : RegIdx) (v : Byte) (n : Nat) (r : Raise)
variable (m : Memory) (f : Flags) (x : RunState)

@[simp] theorem setReg_pc : (s.setReg i v).pc = s.pc := rfl
@[simp] theorem setReg_flags : (s.setReg i v).flags = s.flags := rfl
@[simp] theorem setReg_run : (s.setReg i v).run = s.run := rfl
@[simp] theorem setReg_fault : (s.setReg i v).fault = s.fault := rfl
@[simp] theorem setReg_mem : (s.setReg i v).mem = s.mem := rfl
@[simp] theorem setReg_out : (s.setReg i v).out = s.out := rfl

@[simp] theorem setMem_regs : (s.setMem m).regs = s.regs := rfl
@[simp] theorem setMem_pc : (s.setMem m).pc = s.pc := rfl
@[simp] theorem setMem_flags : (s.setMem m).flags = s.flags := rfl
@[simp] theorem setMem_run : (s.setMem m).run = s.run := rfl
@[simp] theorem setMem_fault : (s.setMem m).fault = s.fault := rfl
@[simp] theorem setMem_mem : (s.setMem m).mem = m := rfl
@[simp] theorem setMem_out : (s.setMem m).out = s.out := rfl
@[simp] theorem setMem_reg : (s.setMem m).reg i = s.reg i := rfl

@[simp] theorem setFlags_regs : (s.setFlags f).regs = s.regs := rfl
@[simp] theorem setFlags_pc : (s.setFlags f).pc = s.pc := rfl
@[simp] theorem setFlags_flags : (s.setFlags f).flags = f := rfl
@[simp] theorem setFlags_run : (s.setFlags f).run = s.run := rfl
@[simp] theorem setFlags_fault : (s.setFlags f).fault = s.fault := rfl
@[simp] theorem setFlags_mem : (s.setFlags f).mem = s.mem := rfl
@[simp] theorem setFlags_out : (s.setFlags f).out = s.out := rfl
@[simp] theorem setFlags_reg : (s.setFlags f).reg i = s.reg i := rfl

@[simp] theorem setRun_regs : (s.setRun x).regs = s.regs := rfl
@[simp] theorem setRun_pc : (s.setRun x).pc = s.pc := rfl
@[simp] theorem setRun_flags : (s.setRun x).flags = s.flags := rfl
@[simp] theorem setRun_run : (s.setRun x).run = x := rfl
@[simp] theorem setRun_fault : (s.setRun x).fault = s.fault := rfl
@[simp] theorem setRun_mem : (s.setRun x).mem = s.mem := rfl
@[simp] theorem setRun_out : (s.setRun x).out = s.out := rfl
@[simp] theorem setRun_reg : (s.setRun x).reg i = s.reg i := rfl

@[simp] theorem advance_regs : (s.advance n).regs = s.regs := rfl
@[simp] theorem advance_reg : (s.advance n).reg i = s.reg i := rfl
@[simp] theorem advance_pc : (s.advance n).pc = s.pc + BitVec.ofNat 9 n := rfl
@[simp] theorem advance_flags : (s.advance n).flags = s.flags := rfl
@[simp] theorem advance_run : (s.advance n).run = s.run := rfl
@[simp] theorem advance_fault : (s.advance n).fault = s.fault := rfl
@[simp] theorem advance_mem : (s.advance n).mem = s.mem := rfl
@[simp] theorem advance_out : (s.advance n).out = s.out := rfl

@[simp] theorem jump_regs : (s.jump v).regs = s.regs := rfl
@[simp] theorem jump_reg : (s.jump v).reg i = s.reg i := rfl
@[simp] theorem jump_pc : (s.jump v).pc = zext9 v := rfl
@[simp] theorem jump_flags : (s.jump v).flags = s.flags := rfl
@[simp] theorem jump_run : (s.jump v).run = s.run := rfl
@[simp] theorem jump_fault : (s.jump v).fault = s.fault := rfl
@[simp] theorem jump_mem : (s.jump v).mem = s.mem := rfl
@[simp] theorem jump_out : (s.jump v).out = s.out := rfl

@[simp] theorem emit_regs : (s.emit v).regs = s.regs := rfl
@[simp] theorem emit_reg : (s.emit v).reg i = s.reg i := rfl
@[simp] theorem emit_pc : (s.emit v).pc = s.pc := rfl
@[simp] theorem emit_flags : (s.emit v).flags = s.flags := rfl
@[simp] theorem emit_run : (s.emit v).run = s.run := rfl
@[simp] theorem emit_fault : (s.emit v).fault = s.fault := rfl
@[simp] theorem emit_mem : (s.emit v).mem = s.mem := rfl
@[simp] theorem emit_out : (s.emit v).out = s.out ++ [v] := rfl

@[simp] theorem takeFault_regs : (s.takeFault r).regs = s.regs := rfl
@[simp] theorem takeFault_reg : (s.takeFault r).reg i = s.reg i := rfl
@[simp] theorem takeFault_pc : (s.takeFault r).pc = s.pc := rfl
@[simp] theorem takeFault_flags : (s.takeFault r).flags = s.flags := rfl
@[simp] theorem takeFault_run : (s.takeFault r).run = .faulted := rfl
@[simp] theorem takeFault_fault : (s.takeFault r).fault = ⟨r.cause, r.info, s.pc⟩ := rfl
@[simp] theorem takeFault_mem : (s.takeFault r).mem = s.mem := rfl
@[simp] theorem takeFault_out : (s.takeFault r).out = s.out := rfl

@[simp] theorem decrementSp_pc : s.decrementSp.pc = s.pc := rfl
@[simp] theorem decrementSp_flags : s.decrementSp.flags = s.flags := rfl
@[simp] theorem decrementSp_run : s.decrementSp.run = s.run := rfl
@[simp] theorem decrementSp_fault : s.decrementSp.fault = s.fault := rfl
@[simp] theorem decrementSp_mem : s.decrementSp.mem = s.mem := rfl
@[simp] theorem decrementSp_out : s.decrementSp.out = s.out := rfl

@[simp] theorem incrementSp_pc : s.incrementSp.pc = s.pc := rfl
@[simp] theorem incrementSp_flags : s.incrementSp.flags = s.flags := rfl
@[simp] theorem incrementSp_run : s.incrementSp.run = s.run := rfl
@[simp] theorem incrementSp_fault : s.incrementSp.fault = s.fault := rfl
@[simp] theorem incrementSp_mem : s.incrementSp.mem = s.mem := rfl
@[simp] theorem incrementSp_out : s.incrementSp.out = s.out := rfl

end Fields

@[simp] theorem sp_setMem (s : State) (m : Memory) : (s.setMem m).sp = s.sp := rfl
@[simp] theorem sp_setFlags (s : State) (f : Flags) : (s.setFlags f).sp = s.sp := rfl
@[simp] theorem sp_setRun (s : State) (x : RunState) : (s.setRun x).sp = s.sp := rfl
@[simp] theorem sp_advance (s : State) (n : Nat) : (s.advance n).sp = s.sp := rfl
@[simp] theorem sp_jump (s : State) (v : Byte) : (s.jump v).sp = s.sp := rfl
@[simp] theorem sp_emit (s : State) (v : Byte) : (s.emit v).sp = s.sp := rfl
@[simp] theorem sp_takeFault (s : State) (r : Raise) : (s.takeFault r).sp = s.sp := rfl

/-- Two states with the same fields are the same state. -/
theorem State.eq_of_fields {s t : State} (hregs : s.regs = t.regs) (hpc : s.pc = t.pc)
    (hflags : s.flags = t.flags) (hrun : s.run = t.run) (hfault : s.fault = t.fault)
    (hmem : s.mem = t.mem) (hout : s.out = t.out) : s = t := by
  cases s
  cases t
  simp_all

/-- Reading a register after a write: the written value there, the old one elsewhere. -/
theorem reg_setReg (s : State) (i j : RegIdx) (v : Byte) :
    (s.setReg i v).reg j = if j = i then v else s.reg j := by
  simp only [State.reg, State.setReg, Vector.getElem_set, Fin.ext_iff, eq_comm]

@[simp] theorem reg_setReg_same (s : State) (i : RegIdx) (v : Byte) : (s.setReg i v).reg i = v := by
  simp [reg_setReg]

theorem reg_setReg_ne (s : State) {i j : RegIdx} (v : Byte) (h : j ≠ i) :
    (s.setReg i v).reg j = s.reg j := by
  simp [reg_setReg, h]

/-- Register files that read the same are the same. -/
theorem regs_eq_of_reg {s t : State} (h : ∀ i, s.reg i = t.reg i) : s.regs = t.regs :=
  Vector.ext fun i hi => h ⟨i, hi⟩

theorem setReg_comm (s : State) {i j : RegIdx} (v w : Byte) (h : i ≠ j) :
    (s.setReg i v).setReg j w = (s.setReg j w).setReg i v := by
  refine State.eq_of_fields (regs_eq_of_reg fun k => ?_) rfl rfl rfl rfl rfl rfl
  simp only [reg_setReg]
  split <;> split <;> simp_all

/-- The stack pointer after a decrement is one less, modulo 256. -/
theorem reg_decrementSp (s : State) (j : RegIdx) :
    s.decrementSp.reg j = if j = spIdx then s.sp - 1 else s.reg j := by
  have h : wrap8 ((s.sp.toNat : Int) - 1) = s.sp - 1 := by
    apply BitVec.eq_of_toNat_eq
    simp [wrap8, BitVec.toNat_ofInt, BitVec.toNat_sub]
    omega
  simp only [State.decrementSp, reg_setReg, h]

/-- The stack pointer after an increment is one more, modulo 256. -/
theorem reg_incrementSp (s : State) (j : RegIdx) :
    s.incrementSp.reg j = if j = spIdx then s.sp + 1 else s.reg j := by
  have h : wrap8 ((s.sp.toNat : Int) + 1) = s.sp + 1 := by
    apply BitVec.eq_of_toNat_eq
    simp [wrap8, BitVec.toNat_ofInt, BitVec.toNat_add]
    omega
  simp only [State.incrementSp, reg_setReg, h]

@[simp] theorem sp_decrementSp (s : State) : s.decrementSp.sp = s.sp - 1 := by
  simp [State.sp, reg_decrementSp]

@[simp] theorem sp_incrementSp (s : State) : s.incrementSp.sp = s.sp + 1 := by
  simp [State.sp, reg_incrementSp]

end Sys2Proof.Machine
end

