-- ==== Sys2Proof/Laws/Ops.lean ====
section
/-! SUPPORT. One spec lemma per shared operation, for later proofs to cite instead of unfolding
it. -/

namespace Sys2Proof.Machine

/-! ### Numbers -/

@[simp] theorem zext9_toNat (b : Byte) : (zext9 b).toNat = b.toNat := by
  simp only [zext9, BitVec.toNat_setWidth]
  omega

/-- Reduction modulo 256, as a number. -/
theorem wrap8_toNat (n : Int) : ((wrap8 n).toNat : Int) = n % 256 := by
  simp only [wrap8, BitVec.toNat_ofInt]
  omega

/-- A number below 256 is not changed by the reduction. -/
theorem wrap8_natCast_toNat {n : Nat} (h : n < 256) : (wrap8 (n : Int)).toNat = n := by
  have := wrap8_toNat (n : Int)
  omega

/-! ### Finishing an instruction -/

@[simp] theorem finish_ok (s t : State) : finish s (.ok t) = .next t := rfl

@[simp] theorem finish_error (s : State) (r : Raise) :
    finish s (.error r) = .next (s.takeFault r) := rfl

/-- An instruction always ends in a next state: the finished one, or its first state with a fault
taken. -/
theorem finish_cases {s t : State} {x : Attempt State} (h : finish s x = .next t) :
    x = .ok t ∨ ∃ r, x = .error r ∧ t = s.takeFault r := by
  cases x with
  | ok u => exact .inl (by simpa using h)
  | error r => exact .inr ⟨r, rfl, by simpa using h.symm⟩

/-! ### Memory accesses -/

theorem byte_lt_memSize (b : Byte) : b.toNat < memSize := b.isLt

/-- A read answers the cell, or raises `OutOfRange` of the address. -/
theorem memRead_cases (s : State) (a : Nat) :
    (a < memSize ∧ s.memRead a = .ok (s.mem.read a)) ∨
    (memSize ≤ a ∧ s.memRead a = .error ⟨.outOfRange, BitVec.ofNat 9 a⟩) := by
  rcases Nat.lt_or_ge a memSize with h | h
  · exact .inl ⟨h, if_pos h⟩
  · exact .inr ⟨h, if_neg (by omega)⟩

/-- A write sets the cell and nothing else, or raises `OutOfRange` of the address. -/
theorem memWrite_cases (s : State) (a : Nat) (v : Byte) :
    (a < memSize ∧ s.memWrite a v = .ok (s.setMem (s.mem.write a v))) ∨
    (memSize ≤ a ∧ s.memWrite a v = .error ⟨.outOfRange, BitVec.ofNat 9 a⟩) := by
  rcases Nat.lt_or_ge a memSize with h | h
  · exact .inl ⟨h, if_pos h⟩
  · exact .inr ⟨h, if_neg (by omega)⟩

/-- An access at an 8-bit address never raises a fault (20_memory.md R42). -/
theorem memRead_byte (s : State) (b : Byte) : s.memRead b.toNat = .ok (s.mem.read b.toNat) :=
  if_pos (byte_lt_memSize b)

theorem memWrite_byte (s : State) (b v : Byte) :
    s.memWrite b.toNat v = .ok (s.setMem (s.mem.write b.toNat v)) :=
  if_pos (byte_lt_memSize b)

/-- The byte on top of the stack is the one at `SP`. -/
theorem topByte_eq (s : State) : s.topByte = .ok (s.mem.read s.sp.toNat) := memRead_byte s s.sp

/-- A push never raises a fault: it decrements `SP` and writes the one cell at the new `SP`. -/
theorem pushByte_eq (s : State) (value : State → Byte) :
    s.pushByte value =
      .ok (s.decrementSp.setMem (s.mem.write (s.sp - 1).toNat (value s.decrementSp))) := by
  simp only [State.pushByte, memWrite_byte, sp_decrementSp, decrementSp_mem]

/-! ### Register operands -/

theorem regByte_toNat (i : RegIdx) : (regByte i).toNat = i.val := by
  simp only [regByte, BitVec.toNat_ofNat]
  have := i.isLt
  omega

@[simp] theorem regOperand_regByte (i : RegIdx) : regOperand (regByte i) = .ok i := by
  have h : (regByte i).toNat < 8 := by rw [regByte_toNat]; exact i.isLt
  unfold regOperand
  rw [dif_pos h]
  exact congrArg Except.ok (Fin.ext (regByte_toNat i))

/-- An operand byte above 7 names no register. -/
theorem regOperand_bad {b : Byte} (h : 8 ≤ b.toNat) :
    regOperand b = .error ⟨.outOfRange, zext9 b⟩ := dif_neg (by omega)

/-- A valid operand byte is the byte of a register. -/
theorem eq_regByte {b : Byte} (h : b.toNat < 8) : b = regByte ⟨b.toNat, h⟩ :=
  BitVec.eq_of_toNat_eq (by rw [regByte_toNat])

/-- A register operand is the register it names, or `OutOfRange(byte)` when it names none. -/
theorem regOperand_cases (b : Byte) :
    (∃ i, b = regByte i ∧ regOperand b = .ok i) ∨
    (8 ≤ b.toNat ∧ regOperand b = .error ⟨.outOfRange, zext9 b⟩) := by
  by_cases h : b.toNat < 8
  · exact .inl ⟨_, eq_regByte h, dif_pos h⟩
  · exact .inr ⟨by omega, regOperand_bad (by omega)⟩

@[simp] theorem withReg_regByte (i : RegIdx) (f : RegIdx → Attempt State) (s : State) :
    withReg (regByte i) f s = finish s (f i) := by
  simp [withReg, bind, Except.bind]

@[simp] theorem withRegs_regByte (i j : RegIdx) (f : RegIdx → RegIdx → Attempt State) (s : State) :
    withRegs (regByte i) (regByte j) f s = finish s (f i j) := by
  simp [withRegs, bind, Except.bind]

/-- One register operand that names no register ends the instruction in a fault. -/
theorem withReg_bad {b : Byte} (h : 8 ≤ b.toNat) (f : RegIdx → Attempt State) (s : State) :
    withReg b f s = .next (s.takeFault ⟨.outOfRange, zext9 b⟩) := by
  simp [withReg, regOperand_bad h, bind, Except.bind]

/-- A first operand that names no register ends the instruction in a fault, whatever the second. -/
theorem withRegs_bad_first {a : Byte} (h : 8 ≤ a.toNat) (b : Byte)
    (f : RegIdx → RegIdx → Attempt State) (s : State) :
    withRegs a b f s = .next (s.takeFault ⟨.outOfRange, zext9 a⟩) := by
  simp [withRegs, regOperand_bad h, bind, Except.bind]

/-- A second operand that names no register, after a first that does. -/
theorem withRegs_bad_second (i : RegIdx) {b : Byte} (h : 8 ≤ b.toNat)
    (f : RegIdx → RegIdx → Attempt State) (s : State) :
    withRegs (regByte i) b f s = .next (s.takeFault ⟨.outOfRange, zext9 b⟩) := by
  simp [withRegs, regOperand_bad h, bind, Except.bind]

/-- What an instruction with one register operand does: execute on the register named, or fault. -/
theorem withReg_cases (b : Byte) (f : RegIdx → Attempt State) (s : State) :
    (∃ i, b = regByte i ∧ withReg b f s = finish s (f i)) ∨
    (8 ≤ b.toNat ∧ withReg b f s = .next (s.takeFault ⟨.outOfRange, zext9 b⟩)) := by
  obtain ⟨i, rfl, -⟩ | ⟨h, -⟩ := regOperand_cases b
  · exact .inl ⟨i, rfl, withReg_regByte i f s⟩
  · exact .inr ⟨h, withReg_bad h f s⟩

/-- What an instruction with two register operands does: execute on the registers named, or fault
for the first operand that names none. -/
theorem withRegs_cases (a b : Byte) (f : RegIdx → RegIdx → Attempt State) (s : State) :
    (∃ i j, a = regByte i ∧ b = regByte j ∧ withRegs a b f s = finish s (f i j)) ∨
    (8 ≤ a.toNat ∧ withRegs a b f s = .next (s.takeFault ⟨.outOfRange, zext9 a⟩)) ∨
    (∃ i, a = regByte i ∧ 8 ≤ b.toNat ∧
      withRegs a b f s = .next (s.takeFault ⟨.outOfRange, zext9 b⟩)) := by
  obtain ⟨i, rfl, -⟩ | ⟨h, -⟩ := regOperand_cases a
  · obtain ⟨j, rfl, -⟩ | ⟨h, -⟩ := regOperand_cases b
    · exact .inl ⟨i, j, rfl, rfl, withRegs_regByte i j f s⟩
    · exact .inr (.inr ⟨i, rfl, h, withRegs_bad_second i h f s⟩)
  · exact .inr (.inl ⟨h, withRegs_bad_first h b f s⟩)

/-! ### Flags -/

/-- A conditional jump reads Equal when the flags are valid and raises a fault when they are not. -/
theorem testEqual_cases (s : State) :
    (s.flags.valid = true ∧ s.testEqual = .ok s.flags.equal) ∨
    (s.flags.valid = false ∧ s.testEqual = .error ⟨.flagsUninitialized, 0⟩) := by
  cases h : s.flags.valid <;> simp [State.testEqual, h]

/-- A comparison sets exactly one of Equal, Less, Greater, and the latch. -/
theorem compareFlags_cases (x y : Byte) :
    (x.toNat = y.toNat ∧ compareFlags x y = ⟨true, false, false, true⟩) ∨
    (x.toNat < y.toNat ∧ compareFlags x y = ⟨false, true, false, true⟩) ∨
    (y.toNat < x.toNat ∧ compareFlags x y = ⟨false, false, true, true⟩) := by
  rcases Nat.lt_trichotomy x.toNat y.toNat with h | h | h
  · exact .inr (.inl ⟨h, by simp [compareFlags, h, h.ne, Nat.lt_asymm h]⟩)
  · exact .inl ⟨h, by simp [compareFlags, h]⟩
  · exact .inr (.inr ⟨h, by simp [compareFlags, h, h.ne', Nat.lt_asymm h]⟩)

end Sys2Proof.Machine
end

