-- ==== Sys2Proof/Laws/Exec.lean ====
section
/-! SUPPORT. The spec lemma of each meaning: what it does on operands that name registers, written
as one state over the operations of Machine/Ops.lean. A later proof rewrites with these and with the
field lemmas of Laws/State.lean and unfolds no meaning. -/

namespace Sys2Proof.Machine

variable (s : State) (i j : RegIdx)

theorem exec_hlt : exec .hlt s = .next (s.setRun .halted) := rfl

theorem exec_ldi (imm : Byte) :
    exec (.ldi (regByte i) imm) s = .next ((s.setReg i imm).advance 3) := by
  simp [exec, execLdi]

theorem exec_prn : exec (.prn (regByte i)) s = .next ((s.emit (s.reg i)).advance 2) := by
  simp [exec, execPrn]

/-- An ALU instruction on registers is the ALU's result with `pc` moved on. -/
theorem aluInstr_regs (op : AluOp) :
    aluInstr op (regByte i) (regByte j) s =
      finish s ((s.alu op i j).map (fun t => t.advance 3)) := by
  simp only [aluInstr, withRegs_regByte]
  cases s.alu op i j <;> rfl

theorem exec_add :
    exec (.add (regByte i) (regByte j)) s =
      .next ((s.setReg i (wrap8 ((s.reg i).toNat + (s.reg j).toNat))).advance 3) :=
  aluInstr_regs s i j .add

theorem exec_sub :
    exec (.sub (regByte i) (regByte j)) s =
      .next ((s.setReg i (wrap8 ((s.reg i).toNat - (s.reg j).toNat))).advance 3) :=
  aluInstr_regs s i j .sub

theorem exec_mul :
    exec (.mul (regByte i) (regByte j)) s =
      .next ((s.setReg i (wrap8 ((s.reg i).toNat * (s.reg j).toNat))).advance 3) :=
  aluInstr_regs s i j .mul

theorem exec_div_zero (h : s.reg j = 0) :
    exec (.div (regByte i) (regByte j)) s =
      .next (s.takeFault ⟨.divisionByZero, BitVec.ofNat 9 j.val⟩) := by
  simp [exec, execDiv, aluInstr_regs, State.alu, h, Except.map]

theorem exec_div_pos (h : s.reg j ≠ 0) :
    exec (.div (regByte i) (regByte j)) s =
      .next ((s.setReg i (wrap8 ((s.reg i).toNat / (s.reg j).toNat))).advance 3) := by
  have : ¬ ((s.reg j).toNat : Int) = 0 := by
    intro h0
    exact h (BitVec.eq_of_toNat_eq (by simpa using h0))
  simp only [exec, execDiv, aluInstr_regs, State.alu, if_neg this, Except.map, finish_ok]

theorem exec_cmp :
    exec (.cmp (regByte i) (regByte j)) s =
      .next ((s.setFlags (compareFlags (s.reg i) (s.reg j))).advance 3) :=
  aluInstr_regs s i j .cmp

theorem exec_push :
    exec (.push (regByte i)) s =
      .next ((s.decrementSp.setMem
        (s.mem.write (s.sp - 1).toNat (s.decrementSp.reg i))).advance 2) := by
  simp [exec, execPush, pushByte_eq, bind, Except.bind]

theorem exec_pop :
    exec (.pop (regByte i)) s =
      .next ((s.setReg i (s.mem.read s.sp.toNat)).incrementSp.advance 2) := by
  simp [exec, execPop, topByte_eq, bind, Except.bind]

theorem exec_call_end (h : 255 < s.pc.toNat + 2) :
    exec (.call (regByte i)) s = .next (s.takeFault ⟨.outOfRange, s.pc + 2⟩) := by
  simp [exec, execCall, h]

theorem exec_call (h : s.pc.toNat + 2 ≤ 255) :
    exec (.call (regByte i)) s =
      .next ((s.decrementSp.setMem
        (s.mem.write (s.sp - 1).toNat (wrap8 (s.pc.toNat + 2)))).jump (s.decrementSp.reg i)) := by
  have : ¬ 255 < s.pc.toNat + 2 := by omega
  simp only [exec, execCall, withReg_regByte, if_neg this, pushByte_eq]
  rfl

theorem exec_ret :
    exec .ret s = .next (s.jump (s.mem.read s.sp.toNat)).incrementSp := by
  simp [exec, execRet, topByte_eq, bind, Except.bind]

theorem exec_jmp : exec (.jmp (regByte i)) s = .next (s.jump (s.reg i)) := by
  simp [exec, execJmp]

/-- A conditional jump on valid flags goes to the register or to the next instruction. -/
theorem condJump_valid (wanted : Bool) (h : s.flags.valid = true) :
    condJump wanted (regByte i) s =
      .next (if s.flags.equal = wanted then s.jump (s.reg i) else s.advance 2) := by
  simp [condJump, State.testEqual, h, bind, Except.bind]

/-- A conditional jump before any comparison is a fault. -/
theorem condJump_unset (wanted : Bool) (h : s.flags.valid = false) :
    condJump wanted (regByte i) s = .next (s.takeFault ⟨.flagsUninitialized, 0⟩) := by
  simp [condJump, State.testEqual, h, bind, Except.bind]

/-! ### Everything an instruction can do -/

/-- Everything an instruction can do in state `s`: take a fault, or one of the 15 completions. -/
inductive Effect (s : State) : Instr → State → Prop where
  | fault (i : Instr) (r : Raise) (hhlt : i ≠ .hlt) (hret : i ≠ .ret) (hnone : r.cause ≠ .none)
      (hop : r.cause ≠ .unsupportedOperation)
      (hflags : r.cause = .flagsUninitialized → s.flags.valid = false) : Effect s i (s.takeFault r)
  | hlt : Effect s .hlt (s.setRun .halted)
  | ldi (i : RegIdx) (imm : Byte) : Effect s (.ldi (regByte i) imm) ((s.setReg i imm).advance 3)
  | prn (i : RegIdx) : Effect s (.prn (regByte i)) ((s.emit (s.reg i)).advance 2)
  | add (i j : RegIdx) : Effect s (.add (regByte i) (regByte j))
      ((s.setReg i (wrap8 ((s.reg i).toNat + (s.reg j).toNat))).advance 3)
  | sub (i j : RegIdx) : Effect s (.sub (regByte i) (regByte j))
      ((s.setReg i (wrap8 ((s.reg i).toNat - (s.reg j).toNat))).advance 3)
  | mul (i j : RegIdx) : Effect s (.mul (regByte i) (regByte j))
      ((s.setReg i (wrap8 ((s.reg i).toNat * (s.reg j).toNat))).advance 3)
  | div (i j : RegIdx) (h : s.reg j ≠ 0) : Effect s (.div (regByte i) (regByte j))
      ((s.setReg i (wrap8 ((s.reg i).toNat / (s.reg j).toNat))).advance 3)
  | cmp (i j : RegIdx) : Effect s (.cmp (regByte i) (regByte j))
      ((s.setFlags (compareFlags (s.reg i) (s.reg j))).advance 3)
  | push (i : RegIdx) : Effect s (.push (regByte i))
      ((s.decrementSp.setMem
        (s.mem.write (s.sp - 1).toNat (s.decrementSp.reg i))).advance 2)
  | pop (i : RegIdx) : Effect s (.pop (regByte i))
      ((s.setReg i (s.mem.read s.sp.toNat)).incrementSp.advance 2)
  | call (i : RegIdx) (h : s.pc.toNat + 2 ≤ 255) : Effect s (.call (regByte i))
      ((s.decrementSp.setMem
        (s.mem.write (s.sp - 1).toNat (wrap8 (s.pc.toNat + 2)))).jump (s.decrementSp.reg i))
  | ret : Effect s .ret (s.jump (s.mem.read s.sp.toNat)).incrementSp
  | jmp (i : RegIdx) : Effect s (.jmp (regByte i)) (s.jump (s.reg i))
  | jeqTaken (i : RegIdx) (hv : s.flags.valid = true) (he : s.flags.equal = true) :
      Effect s (.jeq (regByte i)) (s.jump (s.reg i))
  | jeqNotTaken (i : RegIdx) (hv : s.flags.valid = true) (he : s.flags.equal = false) :
      Effect s (.jeq (regByte i)) (s.advance 2)
  | jneTaken (i : RegIdx) (hv : s.flags.valid = true) (he : s.flags.equal = false) :
      Effect s (.jne (regByte i)) (s.jump (s.reg i))
  | jneNotTaken (i : RegIdx) (hv : s.flags.valid = true) (he : s.flags.equal = true) :
      Effect s (.jne (regByte i)) (s.advance 2)

/-- An instruction with one register operand, from its effect on registers. -/
theorem effect_withReg {s : State} {i : Instr} {r : Byte} {f : RegIdx → Attempt State}
    (hhlt : i ≠ .hlt) (hret : i ≠ .ret) (hexec : exec i s = withReg r f s)
    (h : ∀ k, r = regByte k → ∃ t, exec i s = .next t ∧ Effect s i t) :
    ∃ t, exec i s = .next t ∧ Effect s i t := by
  obtain ⟨k, hk, -⟩ | ⟨-, e⟩ := withReg_cases r f s
  · exact h k hk
  · exact ⟨_, hexec.trans e, .fault i _ hhlt hret (by simp) (by simp) (by simp)⟩

/-- An instruction with two register operands, from its effect on registers. -/
theorem effect_withRegs {s : State} {i : Instr} {a b : Byte} {f : RegIdx → RegIdx → Attempt State}
    (hhlt : i ≠ .hlt) (hret : i ≠ .ret) (hexec : exec i s = withRegs a b f s)
    (h : ∀ j k, a = regByte j → b = regByte k → ∃ t, exec i s = .next t ∧ Effect s i t) :
    ∃ t, exec i s = .next t ∧ Effect s i t := by
  obtain ⟨j, k, hj, hk, -⟩ | ⟨-, e⟩ | ⟨-, -, -, e⟩ := withRegs_cases a b f s
  · exact h j k hj hk
  · exact ⟨_, hexec.trans e, .fault i _ hhlt hret (by simp) (by simp) (by simp)⟩
  · exact ⟨_, hexec.trans e, .fault i _ hhlt hret (by simp) (by simp) (by simp)⟩

/-- A conditional jump, from where it goes on valid flags. -/
theorem effect_condJump {s : State} {i : Instr} {r : Byte} {wanted : Bool}
    (hhlt : i ≠ .hlt) (hret : i ≠ .ret) (hexec : exec i s = condJump wanted r s)
    (htaken : ∀ k, r = regByte k → s.flags.valid = true → s.flags.equal = wanted →
      Effect s i (s.jump (s.reg k)))
    (hnot : ∀ k, r = regByte k → s.flags.valid = true → s.flags.equal ≠ wanted →
      Effect s i (s.advance 2)) :
    ∃ t, exec i s = .next t ∧ Effect s i t := by
  refine effect_withReg hhlt hret hexec fun k hk => ?_
  subst hk
  cases hv : s.flags.valid with
  | false =>
    exact ⟨_, hexec.trans (condJump_unset s k wanted hv),
      .fault i _ hhlt hret (by simp) (by simp) (fun _ => hv)⟩
  | true =>
    refine ⟨_, hexec.trans (condJump_valid s k wanted hv), ?_⟩
    split
    · next he => exact htaken k rfl hv he
    · next he => exact hnot k rfl hv he

/-- An instruction always answers a next state, and that state is one of its effects. -/
theorem exec_effect_of (i : Instr) (s : State) : ∃ t, exec i s = .next t ∧ Effect s i t := by
  cases i with
  | hlt => exact ⟨_, rfl, .hlt⟩
  | ret => exact ⟨_, exec_ret s, .ret⟩
  | ldi r imm =>
    refine effect_withReg (by simp) (by simp) rfl fun k hk => ?_
    subst hk
    exact ⟨_, exec_ldi s k imm, .ldi k imm⟩
  | prn r =>
    refine effect_withReg (by simp) (by simp) rfl fun k hk => ?_
    subst hk
    exact ⟨_, exec_prn s k, .prn k⟩
  | add a b =>
    refine effect_withRegs (by simp) (by simp) rfl fun j k hj hk => ?_
    subst hj hk
    exact ⟨_, exec_add s j k, .add j k⟩
  | sub a b =>
    refine effect_withRegs (by simp) (by simp) rfl fun j k hj hk => ?_
    subst hj hk
    exact ⟨_, exec_sub s j k, .sub j k⟩
  | mul a b =>
    refine effect_withRegs (by simp) (by simp) rfl fun j k hj hk => ?_
    subst hj hk
    exact ⟨_, exec_mul s j k, .mul j k⟩
  | div a b =>
    refine effect_withRegs (by simp) (by simp) rfl fun j k hj hk => ?_
    subst hj hk
    by_cases hz : s.reg k = 0
    · exact ⟨_, exec_div_zero s j k hz,
        .fault _ _ (by simp) (by simp) (by simp) (by simp) (by simp)⟩
    · exact ⟨_, exec_div_pos s j k hz, .div j k hz⟩
  | cmp a b =>
    refine effect_withRegs (by simp) (by simp) rfl fun j k hj hk => ?_
    subst hj hk
    exact ⟨_, exec_cmp s j k, .cmp j k⟩
  | push r =>
    refine effect_withReg (by simp) (by simp) rfl fun k hk => ?_
    subst hk
    exact ⟨_, exec_push s k, .push k⟩
  | pop r =>
    refine effect_withReg (by simp) (by simp) rfl fun k hk => ?_
    subst hk
    exact ⟨_, exec_pop s k, .pop k⟩
  | call r =>
    refine effect_withReg (by simp) (by simp) rfl fun k hk => ?_
    subst hk
    by_cases hz : 255 < s.pc.toNat + 2
    · exact ⟨_, exec_call_end s k hz,
        .fault _ _ (by simp) (by simp) (by simp) (by simp) (by simp)⟩
    · exact ⟨_, exec_call s k (by omega), .call k (by omega)⟩
  | jmp r =>
    refine effect_withReg (by simp) (by simp) rfl fun k hk => ?_
    subst hk
    exact ⟨_, exec_jmp s k, .jmp k⟩
  | jeq r =>
    refine effect_condJump (wanted := true) (by simp) (by simp) rfl (fun k hk hv he => ?_)
      (fun k hk hv he => ?_)
    · exact hk ▸ .jeqTaken k hv he
    · exact hk ▸ .jeqNotTaken k hv (by simpa using he)
  | jne r =>
    refine effect_condJump (wanted := false) (by simp) (by simp) rfl (fun k hk hv he => ?_)
      (fun k hk hv he => ?_)
    · exact hk ▸ .jneTaken k hv he
    · exact hk ▸ .jneNotTaken k hv (by simpa using he)

/-- What an instruction can do: if it answers a next state, that state is one of its effects. -/
theorem exec_effect {i : Instr} {s t : State} (h : exec i s = .next t) : Effect s i t := by
  obtain ⟨u, hu, he⟩ := exec_effect_of i s
  rw [h] at hu
  cases hu
  exact he

end Sys2Proof.Machine
end

