-- ==== Sys2Proof/Laws/Launch.lean ====
section
/-! SUPPORT. What loading an image does. -/

namespace Sys2Proof.Machine

/-- Loading an image that fits changes only memory, to the image's bytes where it lies. -/
theorem loadFrom_ok (image : List Byte) (s : State) (a : Nat) (h : a + image.length ≤ memSize) :
    s.loadFrom a image = .ok (s.setMem (s.mem.storeBytes a image)) := by
  induction image generalizing s a with
  | nil => rfl
  | cons v vs ih =>
    rw [List.length_cons] at h
    have ha : a < memSize := by omega
    simp only [State.loadFrom, State.memWrite, if_pos ha, Memory.storeBytes]
    exact ih (s.setMem (s.mem.write a v)) (a + 1) (by omega)

/-- Loading an image that does not fit fails at the first address past the end of memory. -/
theorem loadFrom_error (image : List Byte) (s : State) (a : Nat) (ha : a ≤ memSize)
    (h : memSize < a + image.length) :
    s.loadFrom a image = .error ⟨.outOfRange, BitVec.ofNat 9 memSize⟩ := by
  induction image generalizing s a with
  | nil => simp only [List.length_nil] at h; omega
  | cons v vs ih =>
    rw [List.length_cons] at h
    obtain ⟨hlt, hw⟩ | ⟨hge, hw⟩ := memWrite_cases s a v
    · simp only [State.loadFrom, hw]
      exact ih _ (a + 1) (by omega) (by omega)
    · obtain rfl : a = memSize := by omega
      simp only [State.loadFrom, hw]
      rfl

end Sys2Proof.Machine
end

