-- ==== Sys2Proof/Laws/PerInstr.lean ====
section
/-! SUPPORT. Statements made of every instruction as syntax, one lemma per constructor. -/

/-- The family `EncodeShape`: an instruction's bytes are its opcode byte and its operand bytes, as
many as its format has, and its mnemonic rebuilt with those bytes is the instruction
(30_encoding.md R49, R50). -/
def Sys2Proof.Laws.EncodeShape.Statement (i : Sys2Proof.Instr) : Prop :=
  ∀ opc : Sys2Proof.Mnemonic → Sys2Proof.Byte,
    Sys2Proof.encode opc i = opc i.mnemonic :: i.operandBytes ∧
    (Sys2Proof.encode opc i).length = 1 + i.mnemonic.format.operandCount ∧
    i.mnemonic.build (i.operandBytes[0]?.getD 0) (i.operandBytes[1]?.getD 0) = i

namespace Sys2Proof.Laws.EncodeShape

open Sys2Proof (Byte Instr)

theorem hlt : Statement Instr.hlt := fun _ => ⟨rfl, rfl, rfl⟩
theorem ldi (r imm : Byte) : Statement (Instr.ldi r imm) := fun _ => ⟨rfl, rfl, rfl⟩
theorem prn (r : Byte) : Statement (Instr.prn r) := fun _ => ⟨rfl, rfl, rfl⟩
theorem add (a b : Byte) : Statement (Instr.add a b) := fun _ => ⟨rfl, rfl, rfl⟩
theorem sub (a b : Byte) : Statement (Instr.sub a b) := fun _ => ⟨rfl, rfl, rfl⟩
theorem mul (a b : Byte) : Statement (Instr.mul a b) := fun _ => ⟨rfl, rfl, rfl⟩
theorem div (a b : Byte) : Statement (Instr.div a b) := fun _ => ⟨rfl, rfl, rfl⟩
theorem cmp (a b : Byte) : Statement (Instr.cmp a b) := fun _ => ⟨rfl, rfl, rfl⟩
theorem push (r : Byte) : Statement (Instr.push r) := fun _ => ⟨rfl, rfl, rfl⟩
theorem pop (r : Byte) : Statement (Instr.pop r) := fun _ => ⟨rfl, rfl, rfl⟩
theorem call (r : Byte) : Statement (Instr.call r) := fun _ => ⟨rfl, rfl, rfl⟩
theorem ret : Statement Instr.ret := fun _ => ⟨rfl, rfl, rfl⟩
theorem jmp (r : Byte) : Statement (Instr.jmp r) := fun _ => ⟨rfl, rfl, rfl⟩
theorem jeq (r : Byte) : Statement (Instr.jeq r) := fun _ => ⟨rfl, rfl, rfl⟩
theorem jne (r : Byte) : Statement (Instr.jne r) := fun _ => ⟨rfl, rfl, rfl⟩

end Sys2Proof.Laws.EncodeShape
end

