-- ==== Sys2Proof/Laws/ProgramFile.lean ====
section
/-! SUPPORT. What reading a line of a program file does: the comment and the whitespace at either
end of a token are taken off, and the token is read as a number. -/

namespace Sys2Proof.Machine

/-- A comment, introduced by `#`, is taken off. -/
theorem uncomment_append_comment (line comment : List Char) :
    uncomment (line ++ '#' :: comment) = uncomment line := by
  induction line with
  | nil => simp [uncomment]
  | cons c line ih =>
    simp only [uncomment, List.cons_append, List.takeWhile] at ih ⊢
    split <;> simp_all

/-- A line without `#` has no comment. -/
theorem uncomment_of_no_hash {line : List Char} (h : ∀ c ∈ line, c ≠ '#') :
    uncomment line = line := by
  induction line with
  | nil => rfl
  | cons c line ih =>
    have hc : (c != '#') = true := by simpa using h c (by simp)
    have := ih fun c' hc' => h c' (by simp [hc'])
    rw [uncomment] at this ⊢
    simp only [List.takeWhile, hc, this]

theorem dropWhile_space_append {pre : List Char} (rest : List Char)
    (h : ∀ c ∈ pre, c.isWhitespace = true) :
    (pre ++ rest).dropWhile Char.isWhitespace = rest.dropWhile Char.isWhitespace := by
  induction pre with
  | nil => rfl
  | cons c pre ih => simp_all

/-- The whitespace around a token that holds none is stripped, and nothing else. -/
theorem strip_token {pre token post : List Char} (hpre : ∀ c ∈ pre, c.isWhitespace = true)
    (hpost : ∀ c ∈ post, c.isWhitespace = true) (htok : ∀ c ∈ token, c.isWhitespace = false) :
    strip (pre ++ token ++ post) = token := by
  have stop : ∀ {l m : List Char}, l ≠ [] → (∀ c ∈ l, c.isWhitespace = false) →
      (l ++ m).dropWhile Char.isWhitespace = l ++ m := by
    intro l m hl h
    cases l with
    | nil => exact absurd rfl hl
    | cons c l => simp [h c (by simp)]
  by_cases hne : token = []
  · subst hne
    have : (pre ++ [] ++ post).dropWhile Char.isWhitespace = [] := by
      rw [List.append_assoc, dropWhile_space_append _ hpre]
      simpa using hpost
    simp only [strip, this, List.reverse_nil, List.dropWhile_nil]
  · have := stop (m := []) (by simpa using hne : token.reverse ≠ [])
      (fun c hc => htok c (List.mem_reverse.mp hc))
    rw [strip, List.append_assoc, dropWhile_space_append _ hpre, stop hne htok, List.reverse_append,
      dropWhile_space_append _ (by simpa using hpost)]
    simpa using congrArg List.reverse this

/-- The token of a line of base-2 digits with whitespace around them and, or not, a comment. -/
theorem token_of_line {pre digits post tail : List Char}
    (hspace : ∀ c ∈ pre ++ post, c.isWhitespace = true)
    (hdigits : ∀ c ∈ digits, c = '0' ∨ c = '1')
    (htail : tail = [] ∨ ∃ comment, tail = '#' :: comment) :
    strip (uncomment (pre ++ digits ++ post ++ tail)) = digits := by
  have hpre : ∀ c ∈ pre, c.isWhitespace = true := fun c h => hspace c (by simp [h])
  have hpost : ∀ c ∈ post, c.isWhitespace = true := fun c h => hspace c (by simp [h])
  have hbare : uncomment (pre ++ digits ++ post) = pre ++ digits ++ post := by
    refine uncomment_of_no_hash fun c hc => ?_
    rintro rfl
    rcases List.mem_append.mp hc with hc | hc
    · rcases List.mem_append.mp hc with hc | hc
      · exact absurd (hpre _ hc) (by decide)
      · exact absurd (hdigits _ hc) (by decide)
    · exact absurd (hpost _ hc) (by decide)
  have : uncomment (pre ++ digits ++ post ++ tail) = pre ++ digits ++ post := by
    rcases htail with rfl | ⟨comment, rfl⟩
    · rw [List.append_nil, hbare]
    · rw [uncomment_append_comment, hbare]
  rw [this]
  exact strip_token hpre hpost fun c hc => by rcases hdigits c hc with rfl | rfl <;> decide

/-- Reading base-2 digits is the fold of doubling and adding. -/
theorem binaryValue_digits (digits : List Bool) (n : Nat) :
    binaryValue n (digits.map fun d => if d then '1' else '0') =
      some (digits.foldl (fun n d => 2 * n + d.toNat) n) := by
  induction digits generalizing n with
  | nil => rfl
  | cons d digits ih => cases d <;> simp [binaryValue, ih]

theorem byteDigits_ne_nil (b : Byte) : byteDigits b ≠ [] := by simp [byteDigits]

theorem byteDigits_binary (b : Byte) : ∀ c ∈ byteDigits b, c = '0' ∨ c = '1' := by
  intro c h
  obtain ⟨k, -, rfl⟩ := List.mem_map.mp h
  split <;> simp

end Sys2Proof.Machine
end

