-- ==== Sys2Proof/Laws/Step.lean ====
section
/-! SUPPORT. What fetching an instruction can answer, and what a step can do. -/

namespace Sys2Proof.Machine

/-! ### The bytes at `pc` -/

theorem bytesFrom_length_le (m : Memory) (n a : Nat) : (m.bytesFrom n a).length ≤ n := by
  induction n generalizing a with
  | zero => simp [Memory.bytesFrom]
  | succ n ih =>
    simp only [Memory.bytesFrom]
    split
    · simpa using ih (a + 1)
    · simp

theorem bytesFrom_get (m : Memory) {n a k : Nat} (hk : k < n) (ha : a + k < memSize) :
    (m.bytesFrom n a)[k]? = some (m.read (a + k)) := by
  induction n generalizing a k with
  | zero => omega
  | succ n ih =>
    simp only [Memory.bytesFrom, if_pos (show a < memSize by omega)]
    cases k with
    | zero => simp
    | succ k =>
      rw [List.getElem?_cons_succ, ih (by omega) (by omega)]
      congr 2
      omega

/-- Each byte the fetch looks at is the one in its cell of memory. -/
theorem window_get {s : State} {k : Nat} (hk : k < 3) (h : s.pc.toNat + k < memSize) :
    s.window[k]? = some (s.mem.read (s.pc.toNat + k)) := bytesFrom_get _ hk h

/-- The three bytes at `pc` when they all lie in memory. -/
theorem window_three {s : State} (h : s.pc.toNat + 2 < memSize) :
    s.window = [s.mem.read s.pc.toNat, s.mem.read (s.pc.toNat + 1), s.mem.read (s.pc.toNat + 2)] := by
  have h0 : s.pc.toNat < memSize := by omega
  have h1 : s.pc.toNat + 1 < memSize := by omega
  have h2 : s.pc.toNat + 1 + 1 < memSize := by omega
  simp only [State.window, Memory.bytesFrom, if_pos h0, if_pos h1, if_pos h2]

theorem window_two {s : State} (h : s.pc.toNat + 2 = memSize) :
    s.window = [s.mem.read s.pc.toNat, s.mem.read (s.pc.toNat + 1)] := by
  have h0 : s.pc.toNat < memSize := by omega
  have h1 : s.pc.toNat + 1 < memSize := by omega
  have h2 : ¬ s.pc.toNat + 1 + 1 < memSize := by omega
  simp only [State.window, Memory.bytesFrom, if_pos h0, if_pos h1, if_neg h2]

theorem window_one {s : State} (h : s.pc.toNat + 1 = memSize) :
    s.window = [s.mem.read s.pc.toNat] := by
  have h0 : s.pc.toNat < memSize := by omega
  have h1 : ¬ s.pc.toNat + 1 < memSize := by omega
  simp only [State.window, Memory.bytesFrom, if_pos h0, if_neg h1]

theorem window_none {s : State} (h : memSize ≤ s.pc.toNat) : s.window = [] := by
  have h0 : ¬ s.pc.toNat < memSize := by omega
  simp only [State.window, Memory.bytesFrom, if_neg h0]

/-! ### Fetching -/

/-- What a fetch can answer: the fault of the first check that fails, or the instruction whose
opcode byte is at `pc` and whose operand bytes follow it. -/
theorem fetch_cases (opc : Mnemonic → Byte) (s : State) :
    (memSize ≤ s.pc.toNat ∧ s.fetch opc = .error ⟨.outOfRange, s.pc⟩) ∨
    (s.pc.toNat < memSize ∧ lookupOpcode opc (s.mem.read s.pc.toNat) = none ∧
      s.fetch opc = .error ⟨.unknownOpcode, zext9 (s.mem.read s.pc.toNat)⟩) ∨
    (∃ m, s.pc.toNat + 1 = memSize ∧ lookupOpcode opc (s.mem.read s.pc.toNat) = some m ∧
      1 ≤ m.format.operandCount ∧ s.fetch opc = .error ⟨.outOfRange, s.pc + 1⟩) ∨
    (∃ m, s.pc.toNat + 2 = memSize ∧ lookupOpcode opc (s.mem.read s.pc.toNat) = some m ∧
      m.format.operandCount = 2 ∧ s.fetch opc = .error ⟨.outOfRange, s.pc + 2⟩) ∨
    (∃ m, s.pc.toNat + m.format.operandCount < memSize ∧
      lookupOpcode opc (s.mem.read s.pc.toNat) = some m ∧
      s.fetch opc = .ok (m.build (s.mem.read (s.pc.toNat + 1)) (s.mem.read (s.pc.toNat + 2)))) := by
  rcases Nat.lt_or_ge s.pc.toNat memSize with hpc | hpc
  swap
  · exact .inl ⟨hpc, by simp [State.fetch, window_none hpc, decode, State.decodeRaise]⟩
  refine .inr ?_
  obtain ⟨bytes, hw⟩ : ∃ bytes, s.window = s.mem.read s.pc.toNat :: bytes := by
    simp only [State.window, Memory.bytesFrom, if_pos hpc]
    exact ⟨_, rfl⟩
  cases hl : lookupOpcode opc (s.mem.read s.pc.toNat) with
  | none => exact .inl ⟨hpc, rfl, by simp [State.fetch, hw, decode, hl, State.decodeRaise]⟩
  | some m =>
    refine .inr ?_
    have hcount : m.format.operandCount ≤ 2 := by cases m <;> decide
    rcases Nat.lt_or_ge (s.pc.toNat + 2) memSize with h3 | h3
    · refine .inr (.inr ⟨m, by omega, rfl, ?_⟩)
      simp only [State.fetch, window_three h3, decode, hl]
      cases m <;> rfl
    · rcases Nat.lt_or_ge (s.pc.toNat + 1) memSize with h2 | h2
      · have h2' : s.pc.toNat + 2 = memSize := by omega
        by_cases hc : m.format.operandCount = 2
        · refine .inr (.inl ⟨m, h2', rfl, hc, ?_⟩)
          simp [State.fetch, window_two h2', decode, hl, hc, decodeOperands, State.decodeRaise]
        · refine .inr (.inr ⟨m, by omega, rfl, ?_⟩)
          simp only [State.fetch, window_two h2', decode, hl]
          cases m <;> first | rfl | exact absurd rfl hc
      · have h1' : s.pc.toNat + 1 = memSize := by omega
        by_cases hc : m.format.operandCount = 0
        · refine .inr (.inr ⟨m, by omega, rfl, ?_⟩)
          simp only [State.fetch, window_one h1', decode, hl]
          cases m <;> first | rfl | exact absurd hc (by decide)
        · refine .inl ⟨m, h1', rfl, by omega, ?_⟩
          simp only [State.fetch, window_one h1', decode, hl]
          cases m <;> first | rfl | exact absurd rfl hc

/-- A fetched instruction lies in memory, and its opcode byte is the one at `pc`. -/
theorem fetch_ok {opc : Mnemonic → Byte} {s : State} {i : Instr} (h : s.fetch opc = .ok i) :
    s.pc.toNat + i.length ≤ memSize ∧ s.mem.read s.pc.toNat = opc i.mnemonic ∧
      i = i.mnemonic.build (s.mem.read (s.pc.toNat + 1)) (s.mem.read (s.pc.toNat + 2)) := by
  obtain ⟨-, e⟩ | ⟨-, -, e⟩ | ⟨-, -, -, -, e⟩ | ⟨-, -, -, -, e⟩ | ⟨m, hpc, hl, e⟩ :=
    fetch_cases opc s <;> rw [h] at e <;> cases e
  simp only [Instr.length, Mnemonic.mnemonic_build]
  exact ⟨by omega, (lookupOpcode_some hl).symm, trivial⟩

/-- A failed fetch is `OutOfRange` or `UnknownOpcode`. -/
theorem fetch_error {opc : Mnemonic → Byte} {s : State} {r : Raise} (h : s.fetch opc = .error r) :
    r.cause = .outOfRange ∨ r.cause = .unknownOpcode := by
  obtain ⟨-, e⟩ | ⟨-, -, e⟩ | ⟨-, -, -, -, e⟩ | ⟨-, -, -, -, e⟩ | ⟨m, hpc, hl, e⟩ :=
    fetch_cases opc s <;> rw [h] at e <;> cases e <;> simp

/-! ### One step -/

theorem stepWith_of_fetch {opc : Mnemonic → Byte} {s : State} {i : Instr}
    (hrun : s.run = .running) (h : s.fetch opc = .ok i) : stepWith opc s = exec i s := by
  simp [stepWith, hrun, h]

theorem stepWith_of_fetch_error {opc : Mnemonic → Byte} {s : State} {r : Raise}
    (hrun : s.run = .running) (h : s.fetch opc = .error r) :
    stepWith opc s = .next (s.takeFault r) := by
  simp [stepWith, hrun, h]

/-- What a step can do: nothing in a stopped machine, the fault of a failed fetch, or the fetched
instruction. -/
theorem stepWith_cases (opc : Mnemonic → Byte) (s : State) :
    (s.run ≠ .running ∧ stepWith opc s = .next s) ∨
    (s.run = .running ∧ ∃ r, s.fetch opc = .error r ∧ stepWith opc s = .next (s.takeFault r)) ∨
    (s.run = .running ∧ ∃ i, s.fetch opc = .ok i ∧ stepWith opc s = exec i s) := by
  cases hrun : s.run with
  | halted => exact .inl ⟨by simp, by simp [stepWith, hrun]⟩
  | faulted => exact .inl ⟨by simp, by simp [stepWith, hrun]⟩
  | running =>
    cases hf : s.fetch opc with
    | error r => exact .inr (.inl ⟨rfl, r, rfl, stepWith_of_fetch_error hrun hf⟩)
    | ok i => exact .inr (.inr ⟨rfl, i, rfl, stepWith_of_fetch hrun hf⟩)

/-- What a step can do, down to the effect of the instruction. -/
theorem step_effect {s t : State} (h : step s = .next t) :
    (s.run ≠ .running ∧ t = s) ∨
    (s.run = .running ∧ ∃ r, s.fetch defaultOpc = .error r ∧ t = s.takeFault r) ∨
    (s.run = .running ∧ ∃ i, s.fetch defaultOpc = .ok i ∧ exec i s = .next t ∧ Effect s i t) := by
  obtain ⟨hr, e⟩ | ⟨hr, r, hf, e⟩ | ⟨hr, i, hf, e⟩ := stepWith_cases Config.default.opc s
  · exact .inl ⟨hr, Host.Outcome.next.inj (h.symm.trans e)⟩
  · exact .inr (.inl ⟨hr, r, hf, Host.Outcome.next.inj (h.symm.trans e)⟩)
  · have hx : exec i s = .next t := e.symm.trans h
    exact .inr (.inr ⟨hr, i, hf, hx, exec_effect hx⟩)

/-- A run of one step more, from the step's next state. -/
theorem core_run_succ (k : Nat) {s t : State} (h : step s = .next t) :
    Host.Core.run Sys2Proof.core (k + 1) s = Host.Core.run Sys2Proof.core k t := by
  have h' : Sys2Proof.core.step s = .next t := h
  have e := Host.Core.run.eq_2 Sys2Proof.core s k
  rw [h'] at e
  exact e

end Sys2Proof.Machine
end

