-- ==== Sys2Proof/Tests/Slice0.lean ====
section
/-! SUPPORT. Tests and witnesses. Expected results are the spec's own: the encodings of
30_encoding.md R50 and R52 and the vectors of 95_test_vectors.md, named beside each test. -/

namespace Sys2Proof.Tests

open Sys2Proof Sys2Proof.Machine

/-! ### Builders -/

/-- A running machine with registers `regs`, `pc`, flags `flags` and `bytes` in memory at `pc`. -/
def machine (regs : Vector Byte 8) (pc : PcWord) (flags : Flags) (bytes : List Byte) : State :=
  { State.reset with
    regs := regs
    pc := pc
    flags := flags
    mem := Memory.storeBytes [] pc.toNat bytes }

/-- The reset state with `bytes` in memory at `pc`. -/
def codeAt (pc : PcWord) (bytes : List Byte) : State :=
  machine State.reset.regs pc Flags.unset bytes

/-- The registers `x[0] = a`, `x[1] = b`, `SP` at its reset value, the others 0. -/
def regsAB (a b : Byte) : Vector Byte 8 := #v[a, b, 0, 0, 0, 0, 0, 0xF4]

/-- One step with `x[0] = a`, `x[1] = b`: what `x[0]`, `x[1]` and `pc` hold after it. -/
def aluAfter (op a b : Byte) : Option (Byte × Byte × PcWord) :=
  match step (machine (regsAB a b) 0 Flags.unset [op, 0, 1]) with
  | .next t => some (t.reg 0, t.reg 1, t.pc)
  | _ => none

/-- What `f` reads of the state after one step. -/
def afterStep {α : Type} (s : State) (f : State → α) : Option α :=
  match step s with
  | .next t => some (f t)
  | _ => none

/-- Run state, fault code, info and pc: the status the host reads. -/
def status (s : State) : RunState × Nat × Nat × Nat :=
  (s.run, s.fault.cause.code, s.fault.info.toNat, s.fault.pc.toNat)

/-- The flags after a CMP, as (Equal, Less, Greater, valid). -/
def flagsE : Flags := ⟨true, false, false, true⟩
def flagsL : Flags := ⟨false, true, false, true⟩
def flagsG : Flags := ⟨false, false, true, true⟩

/-! ### Well-formedness: each register operand's check refuses a byte above 7 (R16, R54) -/

theorem smoke_wf_refuses_each_operand :
    (Instr.ldi 8 0).wf = false ∧ (Instr.prn 8).wf = false ∧
    (Instr.add 8 0).wf = false ∧ (Instr.add 0 8).wf = false ∧
    (Instr.sub 9 0).wf = false ∧ (Instr.sub 0 9).wf = false ∧
    (Instr.mul 255 0).wf = false ∧ (Instr.mul 0 255).wf = false ∧
    (Instr.div 8 0).wf = false ∧ (Instr.div 0 8).wf = false ∧
    (Instr.cmp 16 0).wf = false ∧ (Instr.cmp 0 16).wf = false ∧
    (Instr.push 8).wf = false ∧ (Instr.pop 8).wf = false ∧ (Instr.call 8).wf = false ∧
    (Instr.jmp 8).wf = false ∧ (Instr.jeq 8).wf = false ∧ (Instr.jne 8).wf = false := by decide

theorem smoke_wf_accepts : (Instr.ldi 7 255).wf = true ∧ (Instr.add 7 7).wf = true ∧
    Instr.hlt.wf = true ∧ Instr.ret.wf = true := by decide

/-! ### Decoding: words written out from the encodings of 30_encoding.md R52 -/

theorem test_decode_hlt : decode defaultOpc [0b00000001] = .ok (.hlt, []) := by decide
theorem test_decode_ldi : decode defaultOpc [0b10000010, 0b00000010, 0b11111111] = .ok (.ldi 2 255, []) := by decide
theorem test_decode_prn : decode defaultOpc [0b01000111, 0b00000101] = .ok (.prn 5, []) := by decide
theorem test_decode_add : decode defaultOpc [0b10100000, 0b00000001, 0b00000010] = .ok (.add 1 2, []) := by decide
theorem test_decode_sub : decode defaultOpc [0b10100001, 0b00000001, 0b00000010] = .ok (.sub 1 2, []) := by decide
theorem test_decode_mul : decode defaultOpc [0b10100010, 0b00000001, 0b00000010] = .ok (.mul 1 2, []) := by decide
theorem test_decode_div : decode defaultOpc [0b10100011, 0b00000001, 0b00000010] = .ok (.div 1 2, []) := by decide
theorem test_decode_cmp : decode defaultOpc [0b10100111, 0b00000001, 0b00000010] = .ok (.cmp 1 2, []) := by decide
theorem test_decode_push : decode defaultOpc [0b01000101, 0b00000011] = .ok (.push 3, []) := by decide
theorem test_decode_pop : decode defaultOpc [0b01000110, 0b00000011] = .ok (.pop 3, []) := by decide
theorem test_decode_call : decode defaultOpc [0b01010000, 0b00000100] = .ok (.call 4, []) := by decide
theorem test_decode_ret : decode defaultOpc [0b00010001] = .ok (.ret, []) := by decide
theorem test_decode_jmp : decode defaultOpc [0b01010100, 0b00000110] = .ok (.jmp 6, []) := by decide
theorem test_decode_jeq : decode defaultOpc [0b01010101, 0b00000110] = .ok (.jeq 6, []) := by decide
theorem test_decode_jne : decode defaultOpc [0b01010110, 0b00000110] = .ok (.jne 6, []) := by decide

/-- Vectors A48 and X6: bytes the family gives to instructions this hardware lacks. -/
theorem test_decode_unknown :
    decode defaultOpc [0xA8, 0, 1] = .error (.unknownOpcode 0xA8) ∧
    decode defaultOpc [0x00] = .error (.unknownOpcode 0x00) ∧
    decode defaultOpc [0x57, 0] = .error (.unknownOpcode 0x57) := by decide

theorem test_decode_missing :
    decode defaultOpc [] = .error .noOpcode ∧
    decode defaultOpc [0x82] = .error (.missingOperand 1) ∧
    decode defaultOpc [0x82, 0] = .error (.missingOperand 2) ∧
    decode defaultOpc [0x47] = .error (.missingOperand 1) := by decide

theorem test_decodeTableWord :
    decodeTableWord 24 0b000010000000000010000010 = some (.ldi 0 8) ∧
    decodeTableWord 8 0b10000010 = some (.ldi 0 0) ∧
    decodeTableWord 16 0b0000011101000111 = some (.prn 7) ∧
    decodeTableWord 8 0 = none := by decide

/-- The encoder writes the bytes of program P1 (95_test_vectors.md). -/
theorem test_encode_P1 :
    ([Instr.ldi 0 8, .ldi 1 9, .mul 0 1, .prn 0, .hlt].map (encode defaultOpc)).flatten =
      [0x82, 0x00, 0x08, 0x82, 0x01, 0x09, 0xA2, 0x00, 0x01, 0x47, 0x00, 0x01] := by decide

/-! ### One step each (95_test_vectors.md part 2) -/

/-- H2 -/
theorem test_hlt_H2 : afterStep (codeAt 255 [0x01]) (fun t => (t.run, t.pc)) = some (.halted, 255) := by
  decide

/-- L2, L4 -/
theorem test_ldi_L2_L4 :
    afterStep (codeAt 0 [0x82, 0x03, 0xFF]) (fun t => (t.reg 3, t.pc)) = some (255, 3) ∧
    afterStep (codeAt 0 [0x82, 0x07, 0x20]) (fun t => t.reg 7) = some 0x20 := by decide

/-- L5, L6 -/
theorem test_ldi_L5_L6 :
    afterStep (codeAt 0 [0x82, 0x08, 0x01]) status = some (.faulted, 1, 8, 0) ∧
    afterStep (codeAt 254 [0x82, 0x09]) status = some (.faulted, 1, 256, 254) := by decide

/-- L8, L11 -/
theorem test_prn_L8_L11 :
    afterStep (codeAt 0 [0x47, 0x07]) (fun t => (t.out, t.pc)) = some ([244], 2) ∧
    afterStep (machine (regsAB 254 0) 254 Flags.unset [0x47, 0x00]) (fun t => (t.out, t.pc, t.run)) =
      some ([254], 256, .running) := by decide

/-- A2, A4 -/
theorem test_add_A2_A4 : aluAfter 0xA0 255 1 = some (0, 1, 3) ∧ aluAfter 0xA0 200 100 = some (44, 100, 3) := by
  decide

/-- A8, A9 -/
theorem test_sub_A8_A9 : aluAfter 0xA1 0 1 = some (255, 1, 3) ∧ aluAfter 0xA1 44 100 = some (200, 100, 3) := by
  decide

/-- A15, A16 -/
theorem test_mul_A15_A16 : aluAfter 0xA2 255 255 = some (1, 255, 3) ∧ aluAfter 0xA2 200 2 = some (144, 2, 3) := by
  decide

/-- A23, A21 -/
theorem test_div_A23_A21 : aluAfter 0xA3 200 3 = some (66, 3, 3) ∧ aluAfter 0xA3 1 255 = some (0, 255, 3) := by
  decide

/-- A43, A46 -/
theorem test_div_A43_A46 :
    afterStep (machine (regsAB 10 0) 6 Flags.unset [0xA3, 0, 1]) (fun t => (status t, t.reg 0)) =
      some ((.faulted, 2, 1, 6), 10) ∧
    afterStep (codeAt 0 [0xA3, 9, 1]) status = some (.faulted, 1, 9, 0) := by decide

/-- A36, A37, A40 -/
theorem test_cmp_A36_A37_A40 :
    afterStep (machine (regsAB 200 100) 0 Flags.unset [0xA7, 0, 1]) (fun t => t.flags) = some flagsG ∧
    afterStep (machine (regsAB 127 128) 0 Flags.unset [0xA7, 0, 1]) (fun t => t.flags) = some flagsL ∧
    afterStep (machine (regsAB 1 2) 0 flagsG [0xA7, 0, 1]) (fun t => t.flags) = some flagsL := by decide

/-- T4, T6 -/
theorem test_push_T4_T6 :
    afterStep (machine #v[0xAB, 0, 0, 0, 0, 0, 0, 0] 4 Flags.unset [0x45, 0])
      (fun t => (t.reg 7, t.mem.read 255)) = some (255, 0xAB) ∧
    afterStep (codeAt 0 [0x45, 7]) (fun t => (t.reg 7, t.mem.read 0xF3, t.pc)) =
      some (0xF3, 0xF3, 2) := by decide

/-- T7, T8: the byte at `SP` is 0x20, then 0 -/
theorem test_pop_T7_T8 :
    afterStep { codeAt 0 [0x46, 7] with
        regs := #v[0, 0, 0, 0, 0, 0, 0, 0xF3]
        mem := (codeAt 0 [0x46, 7]).mem.write 0xF3 0x20 } (fun t => t.reg 7) = some 0x21 ∧
    afterStep (codeAt 0 [0x46, 0]) (fun t => (t.reg 0, t.reg 7)) = some (0, 0xF5) := by decide

/-- J4, J15 -/
theorem test_call_J4_J15 :
    afterStep (codeAt 0 [0x50, 7]) (fun t => (t.reg 7, t.mem.read 0xF3, t.pc)) =
      some (0xF3, 2, 0xF3) ∧
    afterStep (codeAt 254 [0x50, 0]) (fun t => (status t, t.reg 7, t.mem.read 0xF3)) =
      some ((.faulted, 1, 256, 254), 0xF4, 0) := by decide

/-- J16 -/
theorem test_ret_J16 :
    afterStep { codeAt 255 [0x11] with
        regs := #v[0, 0, 0, 0, 0, 0, 0, 0xF3]
        mem := (codeAt 255 [0x11]).mem.write 0xF3 5 } (fun t => (t.pc, t.reg 7)) = some (5, 0xF4) := by
  decide

/-- J1 -/
theorem test_jmp_J1 :
    afterStep (machine #v[0, 0, 0, 12, 0, 0, 0, 0xF4] 20 Flags.unset [0x54, 3]) (fun t => t.pc) = some 12 := by
  decide

/-- J5, J6, J9, J12 -/
theorem test_jeq_J5_J6_J9_J12 :
    afterStep (machine #v[0, 0, 30, 0, 0, 0, 0, 0xF4] 10 flagsE [0x55, 2]) (fun t => t.pc) = some 30 ∧
    afterStep (machine #v[0, 0, 30, 0, 0, 0, 0, 0xF4] 10 flagsL [0x55, 2]) (fun t => t.pc) = some 12 ∧
    afterStep (codeAt 0 [0x55, 0]) status = some (.faulted, 5, 0, 0) ∧
    afterStep (codeAt 0 [0x55, 8]) status = some (.faulted, 1, 8, 0) := by decide

/-- J7, J8, J10 -/
theorem test_jne_J7_J8_J10 :
    afterStep (machine #v[0, 0, 0, 12, 0, 0, 0, 0xF4] 20 flagsG [0x56, 3]) (fun t => t.pc) = some 12 ∧
    afterStep (machine #v[0, 0, 0, 12, 0, 0, 0, 0xF4] 20 flagsE [0x56, 3]) (fun t => t.pc) = some 22 ∧
    afterStep (codeAt 0 [0x56, 0]) status = some (.faulted, 5, 0, 0) := by decide

/-- X1, X2, X3 -/
theorem test_fetch_X1_X2_X3 :
    afterStep State.reset status = some (.faulted, 4, 0, 0) ∧
    afterStep (codeAt 255 [0xFF]) status = some (.faulted, 4, 255, 255) ∧
    afterStep (codeAt 256 []) status = some (.faulted, 1, 256, 256) := by decide

/-- 30_encoding.md R61: the source's example line, then an operand, blank lines and a comment line. -/
theorem test_program_file :
    fileImage ["10000010 # LDI".toList, "00000000".toList, "".toList, "  # note".toList,
      " 00001000".toList] = some [0x82, 0x00, 0x08] ∧
    fileImage ["12".toList] = none ∧ fileImage ["100000000".toList] = none := by decide

/-- 30_encoding.md R60 and the source's scenario, whose output is `72`. -/
theorem test_listing_and_output :
    listing (.ldi 0 8) = "LDI R0, 8".toList ∧ listing (.mul 0 1) = "MUL R0, R1".toList ∧
    listing (.prn 0) = "PRN R0".toList ∧ listing .hlt = "HLT".toList ∧
    State.outputLines (State.reset.emit 72) = ["72".toList] := by decide

/-! ### Witnesses: states and operands that meet the hypotheses of each statement -/

theorem witness_DecodeUndoesEncode : OpcInjective defaultOpc := defaultOpc_injective

theorem witness_EncodeUndoesDecode :
    decode defaultOpc [0xA0, 7, 255, 1] = .ok (.add 7 255, [1]) := by decide

/-- Each clause at the boundary: exactly enough bytes, one too few, none. -/
theorem witness_LengthIsFoundFromTheOpcodeByte :
    lookupOpcode defaultOpc 0x82 = some .ldi ∧
    Mnemonic.ldi.format.operandCount ≤ [(0 : Byte), 8].length ∧
    [(0 : Byte)].length < Mnemonic.ldi.format.operandCount ∧
    ([] : List Byte).length < Mnemonic.ldi.format.operandCount := by decide

theorem witness_UnknownOpcodeByteFaults :
    (codeAt 255 [0xFF]).run = .running ∧ (codeAt 255 [0xFF]).pc.toNat ≤ 255 ∧
    ∀ m ∈ Mnemonic.all, defaultOpc m ≠ (codeAt 255 [0xFF]).mem.read 255 := by decide

/-- A three-byte instruction that ends at address 255. -/
theorem witness_StepRunsTheInstructionAtPc :
    (codeAt 253 [0x82, 0, 8]).run = .running ∧
    (codeAt 253 [0x82, 0, 8]).pc.toNat + (Instr.ldi 0 8).length ≤ 256 ∧
    ∀ k, k < (Instr.ldi 0 8).length →
      (encode defaultOpc (.ldi 0 8))[k]? = some ((codeAt 253 [0x82, 0, 8]).mem.read (253 + k)) := by
  decide

/-- Every fault of the order, at the addresses and bytes where one gives way to the next, and a step
with none. -/
theorem witness_StepTakesTheFirstFaultInOrder :
    firstFault defaultOpc (codeAt 256 []) = some ⟨.outOfRange, 256⟩ ∧
    firstFault defaultOpc (codeAt 255 [0xFF]) = some ⟨.unknownOpcode, 255⟩ ∧
    firstFault defaultOpc (codeAt 255 [0x47]) = some ⟨.outOfRange, 256⟩ ∧
    firstFault defaultOpc (codeAt 255 [0x82]) = some ⟨.outOfRange, 256⟩ ∧
    firstFault defaultOpc (codeAt 254 [0x82, 9]) = some ⟨.outOfRange, 256⟩ ∧
    firstFault defaultOpc (codeAt 253 [0x82, 8, 8]) = some ⟨.outOfRange, 8⟩ ∧
    firstFault defaultOpc (codeAt 0 [0xA3, 9, 8]) = some ⟨.outOfRange, 9⟩ ∧
    firstFault defaultOpc (codeAt 0 [0xA3, 7, 8]) = some ⟨.outOfRange, 8⟩ ∧
    firstFault defaultOpc (codeAt 0 [0xA3, 7, 1]) = some ⟨.divisionByZero, 1⟩ ∧
    firstFault defaultOpc (codeAt 254 [0x50, 0]) = some ⟨.outOfRange, 256⟩ ∧
    firstFault defaultOpc (codeAt 0 [0x55, 7]) = some ⟨.flagsUninitialized, 0⟩ ∧
    firstFault defaultOpc (codeAt 0 [0x56, 8]) = some ⟨.outOfRange, 8⟩ ∧
    firstFault defaultOpc (codeAt 253 [0x50, 0]) = none ∧
    firstFault defaultOpc (codeAt 255 [0x01]) = none ∧ (codeAt 255 [0x01]).run = .running := by decide

theorem witness_FaultingStepHasNoOtherEffect :
    State.reset.run = .running ∧ afterStep State.reset (fun t => t.run) = some .faulted := by decide

theorem witness_StoppedMachineStaysAsItIs :
    (State.reset.setRun .halted).run ≠ .running ∧
    (State.reset.takeFault ⟨.outOfRange, 256⟩).run ≠ .running := by decide

theorem witness_HltAloneHaltsAndChangesNothingElse :
    (codeAt 255 [0x01]).run = .running ∧ (codeAt 255 [0x01]).pc.toNat ≤ 255 ∧
    (codeAt 255 [0x01]).mem.read 255 = defaultOpc .hlt ∧
    afterStep (codeAt 255 [0x01]) (fun t => t.run) = some .halted := by decide

theorem witness_InvalidRegisterOperandFaults :
    (Instr.add 8 9).firstBadOperand = some 8 ∧ (Instr.add 7 255).firstBadOperand = some 255 ∧
    (Instr.ldi 8 0).firstBadOperand = some 8 ∧ (Instr.add 7 7).firstBadOperand = none := by decide

theorem witness_RegistersReadAndWrittenFollowTheTable :
    exec (.ldi 3 9) State.reset = .next ((State.reset.setReg 3 9).advance 3) ∧
    (3 : RegIdx) ∉ regsRead State.reset (.ldi 3 9) ∧ (0 : RegIdx) ∉ regsRead State.reset (.jeq 0) :=
  ⟨rfl, by decide, by decide⟩

theorem witness_DivWritesTheQuotientOrFaults :
    ((machine (regsAB 7 1) 0 Flags.unset []).reg 1).toNat ≠ 0 ∧
    ((machine (regsAB 7 0) 0 Flags.unset []).reg 1).toNat = 0 := by decide

theorem witness_SubUndoesAdd : (0 : RegIdx) ≠ 7 := by decide

theorem witness_PopUndoesPush : (0 : RegIdx) ≠ spIdx ∧ (6 : RegIdx) ≠ spIdx := by decide

/-- Each clause: `SP` at 0 going down, at 255 going up, and an access that completes. -/
theorem witness_StackPointerWrapsWithoutAFault :
    let low := machine #v[5, 0, 0, 0, 0, 0, 0, 0] 253 Flags.unset [0x45, 0]
    let high := machine #v[5, 0, 0, 0, 0, 0, 0, 255] 0 Flags.unset [0x46, 0]
    low.sp.toNat = 0 ∧ low.pc.toNat + 2 ≤ 255 ∧ high.sp.toNat = 255 ∧ (0 : RegIdx) ≠ spIdx ∧
    (∃ t, exec (.push (regByte 0)) low = .next t) ∧ (∃ t, exec (.call (regByte 0)) low = .next t) ∧
    (∃ t, exec (.pop (regByte 0)) high = .next t) ∧ (∃ t, exec .ret high = .next t) :=
  ⟨by decide, by decide, by decide, by decide, ⟨_, rfl⟩, ⟨_, rfl⟩, ⟨_, rfl⟩, ⟨_, rfl⟩⟩

/-- The last address CALL completes at, and the first it faults at. -/
theorem witness_CallPushesTheReturnAddressAndJumps :
    (codeAt 253 []).pc.toNat + 2 ≤ 255 ∧ 255 < (codeAt 254 []).pc.toNat + 2 := by decide

/-- Vector J3. -/
theorem witness_RetReturnsBehindTheCall :
    let s := machine #v[0, 11, 0, 0, 0, 0, 0, 0xF4] 6 Flags.unset [0x50, 1, 0x47, 0, 0x01, 0x11]
    s.run = .running ∧ s.pc.toNat + 2 ≤ 255 ∧ (1 : RegIdx) ≠ spIdx ∧
    s.mem.read s.pc.toNat = defaultOpc .call ∧ s.mem.read (s.pc.toNat + 1) = regByte 1 ∧
    s.mem.read (s.reg 1).toNat = defaultOpc .ret ∧ (s.reg 1).toNat ≠ s.decrementSp.sp.toNat := by
  decide

/-- Both ways of a conditional jump. -/
theorem witness_JeqJneFollowTheEqualFlag :
    (machine (regsAB 0 0) 0 flagsE []).flags.valid = true ∧
    (machine (regsAB 0 0) 0 flagsE []).flags.equal = true ∧
    (machine (regsAB 0 0) 0 flagsG []).flags.valid = true ∧
    (machine (regsAB 0 0) 0 flagsG []).flags.equal = false := by decide

theorem witness_CondJumpsFaultUntilACompareHasRun :
    State.reset.flags.valid = false ∧ 7 < (8 : Byte).toNat ∧
    (machine (regsAB 0 0) 0 flagsE [0x55, 1]).flags.valid = true ∧
    (machine (regsAB 0 0) 0 flagsE [0x55, 1]).fault.cause ≠ .flagsUninitialized ∧
    ∃ t, Host.Core.run Sys2Proof.core 1 (machine (regsAB 0 0) 0 flagsE [0x55, 1]) = .next t :=
  ⟨by decide, by decide, by decide, by decide, ⟨_, rfl⟩⟩

theorem witness_PcAfterEachInstruction :
    State.reset.run = .running ∧
    (∃ t, exec (.jmp 7) State.reset = .next t ∧ t.run ≠ .faulted) ∧
    (∃ t, exec (.jeq 7) State.reset = .next t ∧ t.run = .faulted) :=
  ⟨rfl, ⟨_, rfl, by decide⟩, ⟨_, rfl, rfl⟩⟩

/-- An advance that ends at 256, and the fetch there. -/
theorem witness_PcDoesNotWrap :
    let s := codeAt 253 [0x82, 0, 8]
    s.pc.toNat ≤ 256 ∧ s.run = .running ∧ s.fetch defaultOpc = .ok (.ldi 0 8) ∧
    afterStep s (fun t => (t.run, t.pc)) = some (.running, 256) ∧
    (Instr.ldi 0 8).mnemonic ∉ [Mnemonic.call, .ret, .jmp, .jeq, .jne] ∧
    (codeAt 256 []).run = .running ∧ (codeAt 256 []).pc = 256 := by decide

/-- The transfers at the end of memory: JEQ not taken at 254 (vector J17) and taken, JNE not taken
and taken, JMP and RET there, and CALL at the last address it completes at. -/
theorem witness_PcDoesNotWrap_transfers :
    let last (f : Flags) (op : Byte) := machine (regsAB 255 0) 254 f [op, 0]
    let final := fun t : State => (t.run, t.pc.toNat)
    (last flagsG 0x55).fetch defaultOpc = .ok (.jeq 0) ∧
    (last flagsG 0x56).fetch defaultOpc = .ok (.jne 0) ∧
    afterStep (last flagsG 0x55) final = some (.running, 256) ∧
    afterStep (last flagsE 0x55) final = some (.running, 255) ∧
    afterStep (last flagsE 0x56) final = some (.running, 256) ∧
    afterStep (last flagsG 0x56) final = some (.running, 255) ∧
    afterStep (last flagsG 0x54) final = some (.running, 255) ∧
    afterStep (codeAt 255 [0x11]) final = some (.running, 0) ∧
    afterStep (machine (regsAB 255 0) 253 flagsG [0x50, 0]) final = some (.running, 255) := by decide

theorem witness_OnlyCmpWritesAndOnlyJumpsReadFlags :
    (Instr.ldi 0 8).mnemonic ≠ .cmp ∧ (∃ t, exec (.ldi 0 8) State.reset = .next t) ∧
    ((Instr.ldi 0 8).mnemonic ≠ .jeq ∧ (Instr.ldi 0 8).mnemonic ≠ .jne) ∧
    (flagsL.equal = flagsG.equal ∧ flagsL.valid = flagsG.valid) ∧
    (∃ t, exec (.jeq 0) (machine (regsAB 0 0) 0 flagsG []) = .next t) :=
  ⟨by decide, ⟨_, rfl⟩, by decide, by decide, ⟨_, rfl⟩⟩

theorem witness_FlagsValidLatchIsSetByCmpAndNeverCleared :
    (∃ s, State.launch 0xF4 [0x01] = .ok s) ∧
    (machine (regsAB 1 2) 0 flagsE [0xA7, 0, 1]).flags.valid = true ∧
    afterStep (machine (regsAB 1 2) 0 flagsE [0xA7, 0, 1]) (fun t => t.flags.valid) = some true ∧
    (codeAt 0 [0xA7, 0, 1]).flags.valid = false ∧
    afterStep (codeAt 0 [0xA7, 0, 1]) (fun t => t.flags.valid) = some true ∧
    (∃ t, exec (.prn 7) State.reset = .next t ∧ t.fault.cause ≠ .flagsUninitialized) :=
  ⟨⟨_, rfl⟩, by decide, by decide, by decide, by decide, ⟨_, rfl, by decide⟩⟩

/-- The last address that exists, the first that does not, and the last that `INFO` holds. -/
theorem witness_MemoryReadsAndWritesFollowTheContract :
    (255 ≤ 255 ∧ 254 ≤ 255 ∧ 254 ≠ 255) ∧ 255 < 256 ∧ 256 ≤ 511 ∧ 255 < 511 := by decide

theorem witness_OnlyPushAndCallWriteOneCell :
    afterStep (codeAt 0 [0x45, 7]) (fun t => t.mem.read 0xF3) = some 0xF3 ∧
    afterStep (codeAt 0 [0x46, 7]) (fun t => t.mem.read 0xF3) = some 0 := by decide

/-- A PUSH at address 0 into the operand byte of the next instruction, and into the cell behind it
that the fetch reaches last. -/
theorem witness_PushedByteIsSeenByTheNextFetch :
    let s := machine #v[1, 0, 0, 0, 0, 0, 0, 4] 0 Flags.unset [0x45, 0, 0x47, 0]
    (∃ t, exec (.push (regByte 0)) s = .next t ∧ t.pc.toNat + 2 ≤ 255 ∧
      t.pc.toNat + 1 = s.decrementSp.sp.toNat) ∧ 2 < 3 :=
  ⟨⟨_, rfl, by decide, by decide⟩, by decide⟩

/-- Vector J4: CALL R7 jumps to the cell its return address was pushed to, at 0xF3; a CALL from the
last address it completes at, 253, does so too. -/
theorem witness_PushedByteIsSeenByTheNextFetch_call :
    (∃ t, exec (.call (regByte 7)) (codeAt 0 [0x50, 7]) = .next t ∧
      t.pc.toNat = (codeAt 0 [0x50, 7]).decrementSp.sp.toNat ∧ t.pc.toNat + 2 ≤ 255 ∧
      t.window[0]? = some 2 ∧ afterStep t status = some (.faulted, 4, 2, 0xF3)) ∧
    (∃ t, exec (.call (regByte 7)) (codeAt 253 [0x50, 7]) = .next t ∧ t.pc.toNat + 2 ≤ 255) ∧
    (codeAt 253 [0x50, 7]).pc.toNat + 2 ≤ 255 ∧ 2 < 3 :=
  ⟨⟨_, rfl, by decide, by decide, by decide, by decide⟩, ⟨_, rfl, by decide⟩, by decide, by decide⟩

theorem witness_OnlyPrnAppendsToOutAndNothingReadsIt :
    (∃ s, State.launch 0xF4 [0x47, 7] = .ok s) ∧
    afterStep (codeAt 0 [0x47, 7]) (fun t => t.out) = some [0xF4] ∧
    (∃ t, exec (.prn 7) State.reset = .next t) :=
  ⟨⟨_, rfl⟩, by decide, ⟨_, rfl⟩⟩

theorem witness_OutOnlyGrowsAlongARun :
    ∃ t, Host.Core.run Sys2Proof.core 1 (codeAt 0 [0x47, 7]) = .next t ∧ t.out = [0xF4] :=
  ⟨_, rfl, by decide⟩

theorem witness_LaunchGivesTheResetValues :
    ([] : List Byte).length ≤ 256 ∧ (List.replicate 256 (1 : Byte)).length ≤ 256 :=
  ⟨Nat.zero_le _, Nat.le_of_eq List.length_replicate⟩

theorem witness_TooLongAnImageDoesNotLaunch :
    (∃ image : List Byte, 256 < image.length) ∧ ∃ s, State.launch 0xF4 [] = .ok s :=
  ⟨⟨List.replicate 257 1, by rw [List.length_replicate]; exact Nat.lt_succ_self 256⟩, ⟨_, rfl⟩⟩

/-- A state with a stack byte, valid flags and output, and its next state. -/
theorem witness_StepKeepsTheInvariant :
    let s := { machine (regsAB 1 2) 0 flagsE [0x45, 0] with out := [7] }
    s.Inv ∧ ∃ t, step s = .next t :=
  ⟨⟨by decide, by decide, fun _ => .inl (by decide), by decide, by decide, fun _ => rfl, by decide⟩,
    ⟨_, rfl⟩⟩

theorem witness_LaunchMeetsTheInvariant : ∃ s, State.launch 0xF4 [0x82, 0, 8] = .ok s := ⟨_, rfl⟩

theorem witness_UnsupportedOperationIsNeverRecorded :
    State.reset.fault.cause.code ≠ 3 ∧ (∃ t, exec (.jeq 0) State.reset = .next t) ∧
    ∃ t, Host.Core.run Sys2Proof.core 2 State.reset = .next t :=
  ⟨by decide, ⟨_, rfl⟩, ⟨_, rfl⟩⟩

theorem witness_PlacedWordIsRunByTheNextStep :
    (codeAt 253 []).pc.toNat + 2 ≤ 255 ∧
    decodeTableWord 24 0b000010000000000010000010 = some (.ldi 0 8) := by decide

/-- A bare line of digits, a line with whitespace at both ends and a comment, a line with a comment
right behind its digits; a blank line; and tokens of one digit and of the greatest byte. -/
theorem witness_ProgramFileGivesItsImage :
    let rows : List (List Char × Byte × List Char × List Char) :=
      [([], 0x82, [], []), ([' ', '\t'], 0, [' '], ['#', ' ', 'r']), ([], 8, [], ['#'])]
    (∀ r ∈ rows, (∀ c ∈ r.1 ++ r.2.2.1, c.isWhitespace = true) ∧
      (r.2.2.2 = [] ∨ ∃ comment, r.2.2.2 = '#' :: comment)) ∧
    (∀ c ∈ uncomment [' ', '\t', '#', 'n'], c.isWhitespace = true) ∧
    [true].foldl (fun n d => 2 * n + d.toNat) 0 < 256 ∧
    (List.replicate 8 true).foldl (fun n d => 2 * n + d.toNat) 0 = 255 :=
  ⟨by simp; rintro c ((rfl | rfl) | rfl) <;> rfl, List.all_eq_true.mp (by decide), by decide, by decide⟩

end Sys2Proof.Tests
end

/-! ### Operand bytes that name registers -/

namespace Sys2Proof.Machine

/-- A byte passes the register check exactly when it is the byte of a register. -/
theorem isRegByte_iff {b : Byte} : isRegByte b = true ↔ ∃ k, b = regByte k := by
  constructor
  · intro h
    exact ⟨_, eq_regByte (by simpa [isRegByte] using h)⟩
  · rintro ⟨k, rfl⟩
    simp [isRegByte, regByte_toNat]

theorem isRegByte_eq_false {b : Byte} : isRegByte b = false ↔ 8 ≤ b.toNat := by
  simp [isRegByte]

@[simp] theorem namedReg_regByte (k : RegIdx) : namedReg (regByte k) = [k] := by
  have h : (regByte k).toNat < 8 := by rw [regByte_toNat]; exact k.isLt
  simp [namedReg, regByte_toNat]

@[simp] theorem regAt_regByte (s : State) (k : RegIdx) : s.regAt (regByte k) = s.reg k := by
  simp [State.regAt, regByte_toNat]

theorem zext9_regByte (k : RegIdx) : zext9 (regByte k) = BitVec.ofNat 9 k.val := by
  apply BitVec.eq_of_toNat_eq
  rw [zext9_toNat, regByte_toNat, BitVec.toNat_ofNat, Nat.mod_eq_of_lt (by omega)]

/-- An instruction is well formed when each of its register operand bytes is the byte of a
register. -/
theorem wf_iff_regByte {i : Instr} : i.wf = true ↔ ∀ b ∈ i.regOperands, ∃ k, b = regByte k := by
  simp only [Instr.wf, List.all_eq_true, isRegByte_iff]

/-! ### The fault of stages 4 and 5 -/

/-- A byte found not to name a register is above 7. -/
theorem toNat_of_find_bad {l : List Byte} {v : Byte}
    (h : l.find? (fun b => !isRegByte b) = some v) : 8 ≤ v.toNat := by
  have hv : (!isRegByte v) = true := List.find?_some (p := fun b => !isRegByte b) h
  exact isRegByte_eq_false.1 (by simpa using hv)

/-- Of two register operands the first bad one is the first, or the second after a good first. -/
theorem find_bad_two {a b v : Byte} (h : [a, b].find? (fun b => !isRegByte b) = some v) :
    a = v ∨ (∃ k, a = regByte k) ∧ b = v := by
  cases ha : isRegByte a with
  | false => exact .inl (by simpa [ha] using h)
  | true =>
    have hb : [b].find? (fun b => !isRegByte b) = some v := by simpa [ha] using h
    exact .inr ⟨isRegByte_iff.1 ha, (List.mem_singleton.1 (List.mem_of_find?_eq_some hb)).symm⟩

/-- One register operand is turned away before the instruction executes. -/
theorem withReg_find_bad {r v : Byte} (f : RegIdx → Attempt State) (s : State)
    (h : [r].find? (fun b => !isRegByte b) = some v) :
    withReg r f s = .next (s.takeFault ⟨.outOfRange, zext9 v⟩) := by
  obtain rfl : v = r := List.mem_singleton.1 (List.mem_of_find?_eq_some h)
  exact withReg_bad (toNat_of_find_bad h) f s

/-- Of two register operands the first bad one is turned away before the instruction executes. -/
theorem withRegs_find_bad {a b v : Byte} (f : RegIdx → RegIdx → Attempt State) (s : State)
    (h : [a, b].find? (fun b => !isRegByte b) = some v) :
    withRegs a b f s = .next (s.takeFault ⟨.outOfRange, zext9 v⟩) := by
  have hv := toNat_of_find_bad h
  obtain rfl | ⟨⟨k, rfl⟩, rfl⟩ := find_bad_two h
  · exact withRegs_bad_first hv b f s
  · exact withRegs_bad_second k hv f s

/-- The first register operand byte above 7 ends the instruction in `OutOfRange` of that byte. -/
theorem exec_firstBadOperand {i : Instr} {v : Byte} (s : State) (h : i.firstBadOperand = some v) :
    exec i s = .next (s.takeFault ⟨.outOfRange, zext9 v⟩) := by
  cases i with
  | hlt | ret => cases h
  | ldi | prn | push | pop | call | jmp | jeq | jne => exact withReg_find_bad _ s h
  | add | sub | mul | div | cmp => exact withRegs_find_bad _ s h

/-- The fault of an instruction in a state, its register operands validated before its execute
stage (60_exceptions.md R93 (4), (5)). -/
def instrFault (i : Instr) (s : State) : Option Raise :=
  match i.firstBadOperand with
  | some v => some ⟨.outOfRange, zext9 v⟩
  | none => executeFault i.mnemonic (i.operandBytes[1]?.getD 0) s

theorem instrFault_of_bad {i : Instr} {v : Byte} (s : State) (h : i.firstBadOperand = some v) :
    instrFault i s = some ⟨.outOfRange, zext9 v⟩ := by
  simp [instrFault, h]

theorem instrFault_of_wf {i : Instr} (s : State) (h : i.wf = true) :
    instrFault i s = executeFault i.mnemonic (i.operandBytes[1]?.getD 0) s := by
  simp [instrFault, i.firstBadOperand_none.2 h]

/-- An instruction without a fault has well-formed operands. -/
theorem wf_of_instrFault_none {i : Instr} {s : State} (h : instrFault i s = none) :
    i.wf = true := by
  rw [← i.firstBadOperand_none]
  cases hb : i.firstBadOperand with
  | none => rfl
  | some v => simp [instrFault_of_bad s hb] at h

/-- A well-formed instruction takes the fault of its execute stage. -/
theorem exec_executeFault {i : Instr} {s : State} {r : Raise} (hwf : i.wf = true)
    (h : executeFault i.mnemonic (i.operandBytes[1]?.getD 0) s = some r) :
    exec i s = .next (s.takeFault r) := by
  rw [wf_iff_regByte] at hwf
  cases i with
  | hlt | ldi | prn | add | sub | mul | cmp | push | pop | ret | jmp => cases h
  | div a b =>
    obtain ⟨i, rfl⟩ := hwf a (.head _)
    obtain ⟨j, rfl⟩ := hwf b (.tail _ (.head _))
    obtain ⟨hz, rfl⟩ : s.reg j = 0 ∧ _ = r := by
      simpa [executeFault, Instr.mnemonic, Instr.operandBytes] using h
    rw [exec_div_zero s i j hz, zext9_regByte]
  | call b =>
    obtain ⟨k, rfl⟩ := hwf b (.head _)
    obtain ⟨hpc, rfl⟩ : 255 < s.pc.toNat + 2 ∧ _ = r := by
      simpa [executeFault, Instr.mnemonic] using h
    exact exec_call_end s k hpc
  | jeq b =>
    obtain ⟨k, rfl⟩ := hwf b (.head _)
    obtain ⟨hv, rfl⟩ : s.flags.valid = false ∧ _ = r := by
      simpa [executeFault, Instr.mnemonic] using h
    exact condJump_unset s k true hv
  | jne b =>
    obtain ⟨k, rfl⟩ := hwf b (.head _)
    obtain ⟨hv, rfl⟩ : s.flags.valid = false ∧ _ = r := by
      simpa [executeFault, Instr.mnemonic] using h
    exact condJump_unset s k false hv

/-- An instruction takes its fault and does nothing else. -/
theorem exec_instrFault {i : Instr} {s : State} {r : Raise} (h : instrFault i s = some r) :
    exec i s = .next (s.takeFault r) := by
  cases hb : i.firstBadOperand with
  | some v =>
    rw [instrFault_of_bad s hb] at h
    cases h
    exact exec_firstBadOperand s hb
  | none =>
    have hwf := i.firstBadOperand_none.1 hb
    exact exec_executeFault hwf (instrFault_of_wf s hwf ▸ h)

/-- A conditional jump on valid flags changes nothing but `pc`. -/
theorem condJump_completes {s : State} (k : RegIdx) (wanted : Bool) (hv : s.flags.valid = true) :
    ∃ t, condJump wanted (regByte k) s = .next t ∧ t.fault = s.fault ∧ t.run = s.run := by
  refine ⟨_, condJump_valid s k wanted hv, ?_⟩
  split <;> exact ⟨rfl, rfl⟩

/-- An instruction without a fault completes: no fault is recorded, and only HLT changes `RUN`. -/
theorem exec_of_instrFault_none {i : Instr} {s : State} (h : instrFault i s = none) :
    ∃ t, exec i s = .next t ∧ t.fault = s.fault ∧ t.run = if i = .hlt then .halted else s.run := by
  have hwf := wf_of_instrFault_none h
  rw [instrFault_of_wf s hwf] at h
  rw [wf_iff_regByte] at hwf
  cases i with
  | hlt => exact ⟨_, exec_hlt s, rfl, rfl⟩
  | ret => exact ⟨_, exec_ret s, rfl, rfl⟩
  | ldi r imm =>
    obtain ⟨k, rfl⟩ := hwf r (.head _)
    exact ⟨_, exec_ldi s k imm, rfl, rfl⟩
  | prn r =>
    obtain ⟨k, rfl⟩ := hwf r (.head _)
    exact ⟨_, exec_prn s k, rfl, rfl⟩
  | push r =>
    obtain ⟨k, rfl⟩ := hwf r (.head _)
    exact ⟨_, exec_push s k, rfl, rfl⟩
  | pop r =>
    obtain ⟨k, rfl⟩ := hwf r (.head _)
    exact ⟨_, exec_pop s k, rfl, rfl⟩
  | jmp r =>
    obtain ⟨k, rfl⟩ := hwf r (.head _)
    exact ⟨_, exec_jmp s k, rfl, rfl⟩
  | call r =>
    obtain ⟨k, rfl⟩ := hwf r (.head _)
    have hpc : s.pc.toNat + 2 ≤ 255 := by simpa [executeFault, Instr.mnemonic] using h
    exact ⟨_, exec_call s k hpc, rfl, rfl⟩
  | jeq r =>
    obtain ⟨k, rfl⟩ := hwf r (.head _)
    exact condJump_completes k true (by simpa [executeFault, Instr.mnemonic] using h)
  | jne r =>
    obtain ⟨k, rfl⟩ := hwf r (.head _)
    exact condJump_completes k false (by simpa [executeFault, Instr.mnemonic] using h)
  | add a b | sub a b | mul a b | cmp a b =>
    obtain ⟨j, rfl⟩ := hwf a (.head _)
    obtain ⟨k, rfl⟩ := hwf b (.tail _ (.head _))
    exact ⟨_, aluInstr_regs s j k _, rfl, rfl⟩
  | div a b =>
    obtain ⟨j, rfl⟩ := hwf a (.head _)
    obtain ⟨k, rfl⟩ := hwf b (.tail _ (.head _))
    have hz : s.reg k ≠ 0 := by
      simpa [executeFault, Instr.mnemonic, Instr.operandBytes] using h
    exact ⟨_, exec_div_pos s j k hz, rfl, rfl⟩

/-- What an instruction can do to `RUN` and the record: take its fault, or complete. -/
theorem exec_fault_cases {i : Instr} {s t : State} (h : exec i s = .next t) :
    (∃ r, instrFault i s = some r ∧ t = s.takeFault r) ∨
    (instrFault i s = none ∧ t.fault = s.fault ∧ t.run = if i = .hlt then .halted else s.run) := by
  cases hf : instrFault i s with
  | some r => exact .inl ⟨r, rfl, Host.Outcome.next.inj (h.symm.trans (exec_instrFault hf))⟩
  | none =>
    obtain ⟨u, hu, hfault, hrun⟩ := exec_of_instrFault_none hf
    cases h.symm.trans hu
    exact .inr ⟨rfl, hfault, hrun⟩

/-! ### The first fault of a step, from its fetch and its instruction -/

/-- What a step's first fault is read from: registers, `pc`, flags and memory. -/
@[simp] theorem firstFault_takeFault (opc : Mnemonic → Byte) (s : State) (r : Raise) :
    firstFault opc (s.takeFault r) = firstFault opc s := rfl

theorem instrFault_build (m : Mnemonic) (a b : Byte) (s : State) :
    instrFault (m.build a b) s =
      if m.format ≠ .n ∧ 7 < a.toNat then some ⟨.outOfRange, zext9 a⟩
      else if m.format = .rr ∧ 7 < b.toNat then some ⟨.outOfRange, zext9 b⟩
      else executeFault m b s := by
  have hreg : ∀ c : Byte, isRegByte c = !decide (7 < c.toNat) := fun c => by
    simp only [isRegByte, ← decide_not, Nat.not_lt, Nat.lt_succ_iff]
  by_cases ha : 7 < a.toNat <;> by_cases hb : 7 < b.toNat <;> cases m <;>
    simp [instrFault, Instr.firstBadOperand, Instr.regOperands, Mnemonic.build, Mnemonic.format,
      Instr.mnemonic, Instr.operandBytes, executeFault, hreg, ha, hb]

/-- A failed fetch is the step's first fault. -/
theorem firstFault_of_fetch_error {opc : Mnemonic → Byte} {s : State} {r : Raise}
    (h : s.fetch opc = .error r) : firstFault opc s = some r := by
  have hsize : memSize = 256 := rfl
  obtain ⟨hpc, e⟩ | ⟨hpc, hl, e⟩ | ⟨m, hpc, hl, hm, e⟩ | ⟨m, hpc, hl, hm, e⟩ | ⟨m, -, -, e⟩ :=
    fetch_cases opc s <;> cases h.symm.trans e
  · simp [firstFault, show 255 < s.pc.toNat by omega]
  · simp [firstFault, show ¬ 255 < s.pc.toNat by omega, hl]
  · have hpc : s.pc.toNat = 255 := by omega
    rw [hpc] at hl
    simp [firstFault, hpc, hl, hm]
  · have hpc : s.pc.toNat = 254 := by omega
    rw [hpc] at hl
    simp [firstFault, hpc, hl, hm]

/-- After a fetch that succeeds the step's first fault is its instruction's. -/
theorem firstFault_of_fetch_ok {opc : Mnemonic → Byte} {s : State} {i : Instr}
    (h : s.fetch opc = .ok i) : firstFault opc s = instrFault i s := by
  have hsize : memSize = 256 := rfl
  obtain ⟨-, e⟩ | ⟨-, -, e⟩ | ⟨-, -, -, -, e⟩ | ⟨-, -, -, -, e⟩ | ⟨m, hpc, hl, e⟩ :=
    fetch_cases opc s <;> cases h.symm.trans e
  rw [instrFault_build]
  have h0 : ¬ 255 < s.pc.toNat := by omega
  have h1 : ¬ (1 ≤ m.format.operandCount ∧ 255 < s.pc.toNat + 1) := by omega
  have h2 : ¬ (m.format.operandCount = 2 ∧ 255 < s.pc.toNat + 2) := by omega
  simp only [firstFault, if_neg h0, hl, if_neg h1, if_neg h2]

end Sys2Proof.Machine

/-! ### What an effect leaves of each part of the state -/

namespace Sys2Proof.Machine

/-- Only CMP changes the flags, to those of a comparison. -/
theorem Effect.flags {s t : State} {i : Instr} (h : Effect s i t) :
    t.flags = s.flags ∨ i.mnemonic = .cmp ∧ ∃ x y, t.flags = compareFlags x y := by
  cases h with
  | cmp => exact .inr ⟨rfl, _, _, rfl⟩
  | _ => exact .inl rfl

/-- Only PUSH and CALL change memory, in the one cell below `SP`. -/
theorem Effect.mem {s t : State} {i : Instr} (h : Effect s i t) :
    t.mem = s.mem ∨ (i.mnemonic = .push ∨ i.mnemonic = .call) ∧
      ∃ v, t.mem = s.mem.write (s.sp - 1).toNat v := by
  cases h with
  | push => exact .inr ⟨.inl rfl, _, rfl⟩
  | call => exact .inr ⟨.inr rfl, _, rfl⟩
  | _ => exact .inl rfl

/-- Only PRN changes `OUT`, by its register's value at the end. -/
theorem Effect.out {s t : State} {i : Instr} (h : Effect s i t) :
    t.out = s.out ∨ ∃ k, i = .prn (regByte k) ∧ t.out = s.out ++ [s.reg k] := by
  cases h with
  | prn k => exact .inr ⟨k, rfl, rfl⟩
  | _ => exact .inl rfl

/-- `pc` stays, goes to an 8-bit address, or moves on by the instruction's length. -/
theorem Effect.pc {s t : State} {i : Instr} (h : Effect s i t) :
    t.pc = s.pc ∨ (∃ v : Byte, t.pc = zext9 v) ∨ t.pc = s.pc + BitVec.ofNat 9 i.length := by
  cases h with
  | fault | hlt => exact .inl rfl
  | call | ret | jmp | jeqTaken | jneTaken => exact .inr (.inl ⟨_, rfl⟩)
  | _ => exact .inr (.inr rfl)

/-- An advance that ends at most at 256 does not wrap. -/
theorem advance_toNat {p : PcWord} {n : Nat} (h : p.toNat + n ≤ memSize) :
    (p + BitVec.ofNat 9 n).toNat = p.toNat + n := by
  have hsize : memSize = 256 := rfl
  rw [BitVec.toNat_add, BitVec.toNat_ofNat]
  omega

theorem zext9_toNat_le (v : Byte) : (zext9 v).toNat ≤ 255 := by
  rw [zext9_toNat]
  omega

/-! ### The invariant -/

theorem compareFlags_exactlyOne (x y : Byte) : (compareFlags x y).ExactlyOne := by
  obtain ⟨-, h⟩ | ⟨-, h⟩ | ⟨-, h⟩ := compareFlags_cases x y <;> simp [h, Flags.ExactlyOne]

/-- Taking the fault a state calls for keeps the invariant. -/
theorem State.Inv.takeFault {s : State} {r : Raise} (hs : s.Inv)
    (h : firstFault defaultOpc s = some r) : (s.takeFault r).Inv where
  mem_wf := hs.mem_wf
  pc_le := hs.pc_le
  flags_valid := hs.flags_valid
  flags_unset := hs.flags_unset
  halted_at_hlt := by simp
  cleared := by simp
  recorded _ := ⟨(firstFault_takeFault defaultOpc s r).trans h, rfl⟩

/-- An instruction that was fetched and completes keeps the invariant. -/
theorem State.Inv.completed {s t : State} {i : Instr} (hs : s.Inv) (hrun : s.run = .running)
    (hf : s.fetch defaultOpc = .ok i) (hx : exec i s = .next t) (hfault : t.fault = s.fault)
    (htrun : t.run = if i = .hlt then .halted else s.run) : t.Inv := by
  obtain ⟨hlen, hop, -⟩ := fetch_ok hf
  have he : Effect s i t := exec_effect hx
  have hnot : t.run ≠ .faulted := by
    rw [htrun, hrun]
    split <;> simp
  refine ⟨?_, ?_, ?_, ?_, fun hhalt => ?_, fun _ => ?_, fun h => absurd h hnot⟩
  · obtain h | ⟨-, v, h⟩ := he.mem
    · exact h ▸ hs.mem_wf
    · exact h ▸ Memory.wf_write v (byte_lt_memSize _) hs.mem_wf
  · obtain h | ⟨v, h⟩ | h := he.pc
    · exact h ▸ hs.pc_le
    · exact h ▸ (zext9_toNat_le v).trans (by decide)
    · rw [h, advance_toNat hlen]
      exact hlen
  · obtain h | ⟨-, x, y, h⟩ := he.flags
    · exact h ▸ hs.flags_valid
    · exact fun _ => h ▸ compareFlags_exactlyOne x y
  · obtain h | ⟨-, x, y, h⟩ := he.flags
    · exact h ▸ hs.flags_unset
    · simp [h, compareFlags]
  · obtain rfl : i = .hlt := by
      by_contra hi
      simp [htrun, hi, hrun] at hhalt
    cases (exec_hlt s).symm.trans hx
    have hpc : s.pc.toNat < 256 := Nat.lt_of_lt_of_le (Nat.lt_add_of_pos_right Nat.one_pos) hlen
    exact ⟨hpc, hop⟩
  · rw [hfault]
    exact hs.cleared (by simp [hrun])

/-- A step keeps the invariant. -/
theorem State.Inv.step {s t : State} (hs : s.Inv) (h : step s = .next t) : t.Inv := by
  obtain ⟨-, rfl⟩ | ⟨-, r, hf, rfl⟩ | ⟨hrun, i, hf, hx, -⟩ := step_effect h
  · exact hs
  · exact hs.takeFault (firstFault_of_fetch_error hf)
  · obtain ⟨r, hr, rfl⟩ | ⟨-, hfault, htrun⟩ := exec_fault_cases hx
    · exact hs.takeFault ((firstFault_of_fetch_ok hf).trans hr)
    · exact hs.completed hrun hf hx hfault htrun

/-- Settles O41: by what a step can do, a fault being the first fault of the state it freezes. -/
theorem stepKeepsTheInvariant : Obligations.StepKeepsTheInvariant :=
  fun _ _ hs h => hs.step h

end Sys2Proof.Machine

/-! ### Invalid register operands -/

namespace Sys2Proof.Machine

/-- Settles O12: validation comes first, and it refuses exactly the bytes above 7. -/
theorem invalidRegisterOperandFaults : Obligations.InvalidRegisterOperandFaults := by
  refine ⟨fun i s v h => ⟨toNat_of_find_bad h, exec_firstBadOperand s h⟩, fun i => ?_⟩
  rw [i.firstBadOperand_none]
  simp [Instr.wf, isRegByte, Nat.lt_succ_iff]

/-! ### Launch states -/

/-- A launch that succeeds changes only memory of the reset state, and keeps its canonical form. -/
theorem launch_ok {spInit : Byte} {image : List Byte} {s : State}
    (h : State.launch spInit image = .ok s) :
    ∃ m, m.wf = true ∧ s = (State.resetWith spInit).setMem m := by
  rcases Nat.lt_or_ge memSize image.length with hlong | hfit
  · have e := loadFrom_error image (State.resetWith spInit) 0 (Nat.zero_le _) (by omega)
    cases h.symm.trans e
  · have e := loadFrom_ok image (State.resetWith spInit) 0 (by omega)
    cases h.symm.trans e
    exact ⟨_, Memory.wf_storeBytes 0 image (resetWith_mem_wf spInit), rfl⟩

/-- The reset state with any canonical memory meets the invariant. -/
theorem inv_resetWith_setMem (spInit : Byte) {m : Memory} (hm : m.wf = true) :
    ((State.resetWith spInit).setMem m).Inv where
  mem_wf := hm
  pc_le := Nat.zero_le _
  flags_valid := by simp [State.resetWith, Flags.unset]
  flags_unset _ := rfl
  halted_at_hlt := by simp [State.resetWith]
  cleared _ := rfl
  recorded := by simp [State.resetWith]

/-- Settles O43: a launch is the reset state with canonical memory. -/
theorem launchMeetsTheInvariant : Obligations.LaunchMeetsTheInvariant := by
  intro spInit image s h
  obtain ⟨m, hm, rfl⟩ := launch_ok h
  exact inv_resetWith_setMem spInit hm

/-- Settles O42: the reset state is the launch state of the empty image. -/
theorem resetMeetsTheInvariant : Obligations.ResetMeetsTheInvariant :=
  inv_resetWith_setMem Config.default.spInit rfl

/-! ### Runs -/

/-- A stopped machine stays as it is over one step. -/
theorem step_stopped {s : State} (h : s.run ≠ .running) : step s = .next s := by
  cases hrun : s.run with
  | running => exact absurd hrun h
  | halted | faulted => simp [step, stepWith, hrun]

/-- Every step answers a next state. -/
theorem step_next (s : State) : ∃ t, step s = .next t := by
  obtain ⟨-, e⟩ | ⟨-, r, -, e⟩ | ⟨-, i, -, e⟩ := stepWith_cases Config.default.opc s
  · exact ⟨_, e⟩
  · exact ⟨_, e⟩
  · obtain ⟨t, ht, -⟩ := exec_effect_of i s
    exact ⟨t, e.trans ht⟩

/-- What every step keeps holds after any number of steps. -/
theorem core_run_keeps {P : State → Prop} (hstep : ∀ s t, P s → step s = .next t → P t) (k : Nat)
    {s t : State} (hs : P s) (h : Host.Core.run Sys2Proof.core k s = .next t) : P t := by
  induction k generalizing s with
  | zero =>
    cases h
    exact hs
  | succ k ih =>
    obtain ⟨u, hu⟩ := step_next s
    exact ih (hstep s u hs hu) (core_run_succ k hu ▸ h)

/-- Settles O9, by induction on the number of steps. -/
theorem stoppedMachineStaysAsItIs : Obligations.StoppedMachineStaysAsItIs := by
  intro k s h
  induction k with
  | zero => rfl
  | succ k ih => exact (core_run_succ k (step_stopped h)).trans ih

/-- What a step does to `OUT`: nothing, or what a PRN at `pc` does. -/
theorem step_out {s t : State} (h : step s = .next t) :
    t.out = s.out ∨ ∃ k, s.run = .running ∧ s.fetch defaultOpc = .ok (.prn (regByte k)) ∧
      t.out = s.out ++ [s.reg k] := by
  obtain ⟨-, rfl⟩ | ⟨-, r, -, rfl⟩ | ⟨hrun, i, hf, -, he⟩ := step_effect h
  · exact .inl rfl
  · exact .inl rfl
  · obtain hout | ⟨k, rfl, hout⟩ := he.out
    · exact .inl hout
    · exact .inr ⟨k, hrun, hf, hout⟩

/-- Settles O38: each step leaves `OUT` alone or appends to it. -/
theorem outOnlyGrowsAlongARun : Obligations.OutOnlyGrowsAlongARun := by
  intro k s t h
  refine core_run_keeps (P := fun u => s.out <+: u.out) (fun u v hu huv => ?_) k List.prefix_rfl h
  obtain hout | ⟨j, -, -, hout⟩ := step_out huv
  · exact hout ▸ hu
  · exact hout ▸ hu.trans (List.prefix_append _ _)

end Sys2Proof.Machine

/-! ### An instruction depends on what it reads alone

Two runs of one instruction are compared: from `s` to `t` and from `s'` to `t'`, where `s` and `s'`
agree on what the instruction reads. -/

namespace Sys2Proof.Machine

/-- `s` and `s'` agree on what instruction `i` reads in `s`: the registers of 10_state.md R17, the
flags of R23, and everything else but `OUT`. -/
structure SameInputs (i : Instr) (s s' : State) : Prop where
  pc : s'.pc = s.pc
  run : s'.run = s.run
  fault : s'.fault = s.fault
  mem : s'.mem = s.mem
  regs : ∀ j ∈ regsRead s i, s'.reg j = s.reg j
  flags : i.mnemonic = .jeq ∨ i.mnemonic = .jne →
    s'.flags.equal = s.flags.equal ∧ s'.flags.valid = s.flags.valid

/-- `s` and `s'` were changed alike, to `t` and `t'`: what may have differed before was overwritten
with the same value or left alone, and `OUT` was extended alike. -/
structure ChangedAlike (s s' t t' : State) : Prop where
  pc : t'.pc = t.pc
  run : t'.run = t.run
  fault : t'.fault = t.fault
  mem : t'.mem = t.mem
  regs : ∀ j, t'.reg j = t.reg j ∨ t.reg j = s.reg j ∧ t'.reg j = s'.reg j
  flags : t'.flags = t.flags ∨ t.flags = s.flags ∧ t'.flags = s'.flags
  out : ∃ o, t.out = s.out ++ o ∧ t'.out = s'.out ++ o

namespace ChangedAlike

theorem start {i : Instr} {s s' : State} (h : SameInputs i s s') : ChangedAlike s s' s s' where
  pc := h.pc
  run := h.run
  fault := h.fault
  mem := h.mem
  regs _ := .inr ⟨rfl, rfl⟩
  flags := .inr ⟨rfl, rfl⟩
  out := ⟨[], by simp⟩

variable {s s' t t' : State} (h : ChangedAlike s s' t t')
include h

theorem setReg (i : RegIdx) (v : Byte) : ChangedAlike s s' (t.setReg i v) (t'.setReg i v) where
  __ := h
  regs j := by
    simp only [reg_setReg]
    split
    · exact .inl rfl
    · exact h.regs j

theorem setFlags (f : Flags) : ChangedAlike s s' (t.setFlags f) (t'.setFlags f) where
  __ := h
  flags := .inl rfl

theorem setMem (m : Memory) : ChangedAlike s s' (t.setMem m) (t'.setMem m) where
  __ := h
  mem := rfl

theorem setRun (x : RunState) : ChangedAlike s s' (t.setRun x) (t'.setRun x) where
  __ := h
  run := rfl

theorem advance (n : Nat) : ChangedAlike s s' (t.advance n) (t'.advance n) where
  __ := h
  pc := by simp only [advance_pc, h.pc]

theorem jump (v : Byte) : ChangedAlike s s' (t.jump v) (t'.jump v) where
  __ := h
  pc := rfl

theorem emit (v : Byte) : ChangedAlike s s' (t.emit v) (t'.emit v) where
  __ := h
  out := by
    obtain ⟨o, ho, ho'⟩ := h.out
    exact ⟨o ++ [v], by simp [ho, ho']⟩

theorem reg_eq {j : RegIdx} (hs : s'.reg j = s.reg j) : t'.reg j = t.reg j := by
  obtain e | ⟨ht, ht'⟩ := h.regs j
  · exact e
  · rw [ht, ht', hs]

theorem flags_eq (hs : s'.flags = s.flags) : t'.flags = t.flags := by
  obtain e | ⟨ht, ht'⟩ := h.flags
  · exact e
  · rw [ht, ht', hs]

theorem out_eq (hs : s'.out = s.out) : t'.out = t.out := by
  obtain ⟨o, ht, ht'⟩ := h.out
  rw [ht, ht', hs]

theorem sameMem : SameMem t t' := fun a => by rw [h.mem]

theorem takeFault (r : Raise) : ChangedAlike s s' (t.takeFault r) (t'.takeFault r) where
  __ := h
  run := rfl
  fault := by simp only [takeFault_fault, h.pc]

theorem decrementSp (hsp : t'.sp = t.sp) : ChangedAlike s s' t.decrementSp t'.decrementSp := by
  rw [State.decrementSp, State.decrementSp, hsp]
  exact h.setReg _ _

theorem incrementSp (hsp : t'.sp = t.sp) : ChangedAlike s s' t.incrementSp t'.incrementSp := by
  rw [State.incrementSp, State.incrementSp, hsp]
  exact h.setReg _ _

end ChangedAlike

/-- Two answers, begun in `s` and `s'`, that changed them alike. -/
def AnsweredAlike (s s' : State) (x x' : Answer) : Prop :=
  ∃ t t', x = .next t ∧ x' = .next t' ∧ ChangedAlike s s' t t'

/-- Agreement on what the instruction reads is agreement on its fault. -/
theorem SameInputs.instrFault_eq {i : Instr} {s s' : State} (h : SameInputs i s s') :
    instrFault i s' = instrFault i s := by
  cases hb : i.firstBadOperand with
  | some v => rw [instrFault_of_bad s hb, instrFault_of_bad s' hb]
  | none =>
    have hwf := i.firstBadOperand_none.1 hb
    rw [instrFault_of_wf s hwf, instrFault_of_wf s' hwf]
    rw [wf_iff_regByte] at hwf
    cases i with
    | hlt | ldi | prn | add | sub | mul | cmp | push | pop | ret | jmp => rfl
    | call r => simp only [executeFault, Instr.mnemonic, h.pc]
    | jeq r => simp only [executeFault, Instr.mnemonic, (h.flags (.inl rfl)).2]
    | jne r => simp only [executeFault, Instr.mnemonic, (h.flags (.inr rfl)).2]
    | div a b =>
      obtain ⟨k, rfl⟩ := hwf b (.tail _ (.head _))
      have hk : s'.reg k = s.reg k := h.regs k (by simp [regsRead])
      simp [executeFault, Instr.mnemonic, Instr.operandBytes, hk]

/-- A conditional jump on valid flags, with its register read only when it is taken. -/
theorem condJump_alike {s s' : State} {wanted : Bool} {k : RegIdx} (h : ChangedAlike s s' s s')
    (hv : s.flags.valid = true) (hv' : s'.flags.valid = s.flags.valid)
    (he : s'.flags.equal = s.flags.equal)
    (hk : s.flags.equal = wanted → s'.reg k = s.reg k) :
    AnsweredAlike s s' (condJump wanted (regByte k) s) (condJump wanted (regByte k) s') := by
  refine ⟨_, _, condJump_valid s k wanted hv, condJump_valid s' k wanted (hv'.trans hv), ?_⟩
  rw [he]
  split
  · next hw => rw [hk hw]; exact h.jump _
  · exact h.advance 2

/-- An ALU instruction reads its two registers and nothing else. -/
theorem aluInstr_alike {s s' : State} {op : AluOp} {j k : RegIdx} (h : ChangedAlike s s' s s')
    (hj : s'.reg j = s.reg j) (hk : s'.reg k = s.reg k) :
    AnsweredAlike s s' (aluInstr op (regByte j) (regByte k) s)
      (aluInstr op (regByte j) (regByte k) s') := by
  cases op with
  | add => exact ⟨_, _, exec_add s j k, hj ▸ hk ▸ exec_add s' j k, (h.setReg j _).advance 3⟩
  | sub => exact ⟨_, _, exec_sub s j k, hj ▸ hk ▸ exec_sub s' j k, (h.setReg j _).advance 3⟩
  | mul => exact ⟨_, _, exec_mul s j k, hj ▸ hk ▸ exec_mul s' j k, (h.setReg j _).advance 3⟩
  | cmp => exact ⟨_, _, exec_cmp s j k, hj ▸ hk ▸ exec_cmp s' j k, (h.setFlags _).advance 3⟩
  | div =>
    by_cases hz : s.reg k = 0
    · exact ⟨_, _, exec_div_zero s j k hz, exec_div_zero s' j k (hk.trans hz), h.takeFault _⟩
    · exact ⟨_, _, exec_div_pos s j k hz, hj ▸ hk ▸ exec_div_pos s' j k (hk ▸ hz),
        (h.setReg j _).advance 3⟩

/-- An instruction changes alike two states that agree on what it reads. -/
theorem exec_alike {i : Instr} {s s' : State} (h : SameInputs i s s') :
    AnsweredAlike s s' (exec i s) (exec i s') := by
  have h0 : ChangedAlike s s' s s' := .start h
  cases hf : instrFault i s with
  | some r =>
    exact ⟨_, _, exec_instrFault hf, exec_instrFault (h.instrFault_eq.trans hf), h0.takeFault r⟩
  | none =>
    have hwf := wf_of_instrFault_none hf
    rw [instrFault_of_wf s hwf] at hf
    rw [wf_iff_regByte] at hwf
    cases i with
    | hlt => exact ⟨_, _, exec_hlt s, exec_hlt s', h0.setRun _⟩
    | ldi r imm =>
      obtain ⟨k, rfl⟩ := hwf r (.head _)
      exact ⟨_, _, exec_ldi s k imm, exec_ldi s' k imm, (h0.setReg k imm).advance 3⟩
    | prn r =>
      obtain ⟨k, rfl⟩ := hwf r (.head _)
      have hk : s'.reg k = s.reg k := h.regs k (by simp [regsRead])
      exact ⟨_, _, exec_prn s k, hk ▸ exec_prn s' k, (h0.emit _).advance 2⟩
    | add a b | sub a b | mul a b | div a b | cmp a b =>
      obtain ⟨j, rfl⟩ := hwf a (.head _)
      obtain ⟨k, rfl⟩ := hwf b (.tail _ (.head _))
      exact aluInstr_alike h0 (h.regs j (by simp [regsRead])) (h.regs k (by simp [regsRead]))
    | push r =>
      obtain ⟨k, rfl⟩ := hwf r (.head _)
      have hsp : s'.sp = s.sp := h.regs spIdx (by simp [regsRead])
      have hk : s'.decrementSp.reg k = s.decrementSp.reg k := by
        simp only [reg_decrementSp, hsp, h.regs k (by simp [regsRead])]
      refine ⟨_, _, exec_push s k, exec_push s' k, ?_⟩
      rw [h.mem, hsp, hk]
      exact ((h0.decrementSp hsp).setMem _).advance 2
    | pop r =>
      obtain ⟨k, rfl⟩ := hwf r (.head _)
      have hsp : s'.sp = s.sp := h.regs spIdx (by simp [regsRead])
      refine ⟨_, _, exec_pop s k, exec_pop s' k, ?_⟩
      rw [h.mem, hsp]
      refine ((h0.setReg k _).incrementSp ?_).advance 2
      simp only [State.sp, reg_setReg] at hsp ⊢
      rw [hsp]
    | call r =>
      obtain ⟨k, rfl⟩ := hwf r (.head _)
      have hpc : s.pc.toNat + 2 ≤ 255 := by simpa [executeFault, Instr.mnemonic] using hf
      have hsp : s'.sp = s.sp := h.regs spIdx (by simp [regsRead])
      have hk : s'.decrementSp.reg k = s.decrementSp.reg k := by
        simp only [reg_decrementSp, hsp, h.regs k (by simp [regsRead])]
      refine ⟨_, _, exec_call s k hpc, exec_call s' k (h.pc ▸ hpc), ?_⟩
      rw [h.mem, hsp, hk, h.pc]
      exact ((h0.decrementSp hsp).setMem _).jump _
    | ret =>
      have hsp : s'.sp = s.sp := h.regs spIdx (by simp [regsRead])
      refine ⟨_, _, exec_ret s, exec_ret s', ?_⟩
      rw [h.mem, hsp]
      exact (h0.jump _).incrementSp hsp
    | jmp r =>
      obtain ⟨k, rfl⟩ := hwf r (.head _)
      have hk : s'.reg k = s.reg k := h.regs k (by simp [regsRead])
      exact ⟨_, _, exec_jmp s k, hk ▸ exec_jmp s' k, h0.jump _⟩
    | jeq r =>
      obtain ⟨k, rfl⟩ := hwf r (.head _)
      obtain ⟨he, hv⟩ := h.flags (.inl rfl)
      exact condJump_alike h0 (by simpa [executeFault, Instr.mnemonic] using hf) hv he
        fun ht => h.regs k (by simp [regsRead, ht])
    | jne r =>
      obtain ⟨k, rfl⟩ := hwf r (.head _)
      obtain ⟨he, hv⟩ := h.flags (.inr rfl)
      exact condJump_alike h0 (by simpa [executeFault, Instr.mnemonic] using hf) hv he
        fun ht => h.regs k (by simp [regsRead, ht])

/-- The answer of the second state, from the first one's. -/
theorem exec_next_alike {i : Instr} {s s' t : State} (h : SameInputs i s s')
    (hx : exec i s = .next t) : ∃ t', exec i s' = .next t' ∧ ChangedAlike s s' t t' := by
  obtain ⟨u, t', hu, ht', ha⟩ := exec_alike h
  cases hx.symm.trans hu
  exact ⟨t', ht', ha⟩

/-! ### Registers -/

/-- An instruction changes no register outside the table's last column. -/
theorem Effect.regs {s t : State} {i : Instr} (h : Effect s i t) :
    SameRegsExcept (regsWritten i) s t := by
  intro k hk
  cases h with
  | ldi j | add j | sub j | mul j | div j =>
    exact reg_setReg_ne s _ (by simpa [regsWritten] using hk)
  | push | call | ret => exact reg_setReg_ne _ _ (by simpa [regsWritten] using hk)
  | pop j =>
    obtain ⟨hsp, hj⟩ : k ≠ spIdx ∧ k ≠ j := by simpa [regsWritten] using hk
    exact (reg_setReg_ne _ _ hsp).trans (reg_setReg_ne s _ hj)
  | _ => rfl

/-- Changing a register the instruction does not read leaves its inputs the same. -/
theorem SameInputs.setReg {i : Instr} {s : State} {j : RegIdx} (v : Byte)
    (h : j ∉ regsRead s i) : SameInputs i s (s.setReg j v) where
  pc := rfl
  run := rfl
  fault := rfl
  mem := rfl
  regs _ hk := reg_setReg_ne s v fun e => h (e ▸ hk)
  flags _ := ⟨rfl, rfl⟩

/-- Settles O13: by the effects' register frame, and by comparing two runs that differ in a register
the instruction does not read. -/
theorem registersReadAndWrittenFollowTheTable :
    Obligations.RegistersReadAndWrittenFollowTheTable := by
  refine ⟨fun i s t h => (exec_effect h).regs, fun i s t j v h hj => ?_⟩
  obtain ⟨u, hu, ha⟩ := exec_next_alike (.setReg v hj) h
  exact ⟨u, hu, fun k hk => ha.reg_eq (reg_setReg_ne s v (by simpa using hk)), ha.pc,
    ha.flags_eq rfl, ⟨ha.run, ha.fault⟩, ha.sameMem, ha.out_eq rfl⟩

/-! ### Flags -/

/-- Changing the flags, but for those a conditional jump reads, leaves an instruction's inputs the
same. -/
theorem SameInputs.withFlags {i : Instr} {s : State} {f : Flags}
    (h : (i.mnemonic ≠ .jeq ∧ i.mnemonic ≠ .jne) ∨
      (f.equal = s.flags.equal ∧ f.valid = s.flags.valid)) :
    SameInputs i s { s with flags := f } where
  pc := rfl
  run := rfl
  fault := rfl
  mem := rfl
  regs _ _ := rfl
  flags hi := by
    obtain ⟨hjeq, hjne⟩ | h := h
    · exact absurd hi (by simp [hjeq, hjne])
    · exact h

/-- Settles O32: by the effects' flags, and by comparing two runs that differ in the flags. -/
theorem onlyCmpWritesAndOnlyJumpsReadFlags : Obligations.OnlyCmpWritesAndOnlyJumpsReadFlags := by
  refine ⟨fun i s t hi h => ?_, fun i s t f h hf => ?_, fun a b s f => ?_⟩
  · obtain e | ⟨hcmp, -⟩ := (exec_effect h).flags
    · exact e
    · exact absurd hcmp hi
  · obtain ⟨u, hu, ha⟩ := exec_next_alike (.withFlags hf) h
    exact ⟨u, hu, fun _ => ha.reg_eq rfl, ha.pc, ⟨ha.run, ha.fault⟩, ha.sameMem, ha.out_eq rfl⟩
  · exact ⟨_, _, exec_cmp s a b, exec_cmp _ a b, rfl, rfl, compareFlags_exactlyOne _ _⟩

/-- No instruction clears the latch. -/
theorem Effect.valid {s t : State} {i : Instr} (h : Effect s i t) (hv : s.flags.valid = true) :
    t.flags.valid = true := by
  obtain e | ⟨-, x, y, e⟩ := h.flags
  · exact e ▸ hv
  · rw [e]
    rfl

/-- What a step does to the flags: nothing, or what a CMP at `pc` does. -/
theorem step_flags {s t : State} (h : step s = .next t) :
    t.flags = s.flags ∨ s.mem.read s.pc.toNat = defaultOpc .cmp ∧ t.flags.valid = true := by
  obtain ⟨-, rfl⟩ | ⟨-, r, -, rfl⟩ | ⟨-, i, hf, -, he⟩ := step_effect h
  · exact .inl rfl
  · exact .inl rfl
  · obtain e | ⟨hi, x, y, e⟩ := he.flags
    · exact .inl e
    · obtain ⟨-, hop, -⟩ := fetch_ok hf
      exact .inr ⟨hi ▸ hop, by rw [e]; rfl⟩

/-- The state with the flags-valid latch set. -/
def State.latched (s : State) : State := { s with flags := { s.flags with valid := true } }

theorem State.latched_of_valid {s : State} (h : s.flags.valid = true) : s.latched = s := by
  obtain ⟨regs, pc, ⟨e, l, g, v⟩, run, fault, mem, out⟩ := s
  cases h
  rfl

/-- Two states changed alike from states that differ in the latch alone differ in it alone. -/
theorem ChangedAlike.eq_latched {s t u : State} (h : ChangedAlike s s.latched t u)
    (hv : u.flags.valid = true) : u = t.latched := by
  refine State.eq_of_fields (regs_eq_of_reg fun _ => h.reg_eq rfl) h.pc ?_ h.run h.fault h.mem
    (h.out_eq rfl)
  obtain e | ⟨ht, hu⟩ := h.flags
  · exact e.trans (congrArg State.flags (State.latched_of_valid (e ▸ hv))).symm
  · simp only [State.latched, ht, hu]

/-- A conditional jump before any comparison ends in one of two faults. -/
theorem instrFault_jump_unset {i : Instr} {s : State} (hi : i.mnemonic = .jeq ∨ i.mnemonic = .jne)
    (hv : s.flags.valid = false) :
    (∃ v, i.firstBadOperand = some v) ∨ instrFault i s = some ⟨.flagsUninitialized, 0⟩ := by
  cases hb : i.firstBadOperand with
  | some v => exact .inl ⟨v, rfl⟩
  | none =>
    rw [instrFault_of_wf s (i.firstBadOperand_none.1 hb)]
    rcases hi with hi | hi <;> exact .inr (by simp [hi, executeFault, hv])

/-- An instruction that does not end in `FlagsUninitialized` does not see the latch. -/
theorem exec_latched {i : Instr} {s t : State} (h : exec i s = .next t)
    (hcause : t.fault.cause ≠ .flagsUninitialized) : exec i s.latched = .next t.latched := by
  cases hv : s.flags.valid with
  | true => rw [State.latched_of_valid hv, State.latched_of_valid ((exec_effect h).valid hv), h]
  | false =>
    by_cases hi : i.mnemonic = .jeq ∨ i.mnemonic = .jne
    · obtain ⟨v, hb⟩ | hf := instrFault_jump_unset hi hv
      · cases h.symm.trans (exec_firstBadOperand s hb)
        exact exec_firstBadOperand s.latched hb
      · cases h.symm.trans (exec_instrFault hf)
        exact absurd rfl hcause
    · obtain ⟨u, hu, ha⟩ := exec_next_alike (.withFlags (.inl (not_or.1 hi))) h
      rw [← ha.eq_latched ((exec_effect hu).valid rfl)]
      exact hu

/-- Settles O33: only CMP touches the latch, and only the conditional jumps' fault shows it. -/
theorem flagsValidLatchIsSetByCmpAndNeverCleared :
    Obligations.FlagsValidLatchIsSetByCmpAndNeverCleared := by
  refine ⟨fun spInit image s h => ?_, fun a b s => ⟨_, exec_cmp s a b, rfl⟩, fun s t h hv => ?_,
    fun s t h hv hv' => ?_, fun r s hv => ?_, fun i s t h hcause => exec_latched h hcause⟩
  · obtain ⟨m, -, rfl⟩ := launch_ok h
    rfl
  · obtain e | ⟨-, hv'⟩ := step_flags h
    · exact e ▸ hv
    · exact hv'
  · obtain e | ⟨hop, -⟩ := step_flags h
    · simp [e, hv] at hv'
    · exact hop
  · exact ⟨_, _, condJump_unset s r true hv, rfl, condJump_unset s r false hv, rfl⟩

/-! ### The observation channel -/

/-- No instruction reads `OUT`. -/
theorem SameInputs.withOut (i : Instr) (s : State) (o : List Byte) :
    SameInputs i s { s with out := o } where
  pc := rfl
  run := rfl
  fault := rfl
  mem := rfl
  regs _ _ := rfl
  flags _ := ⟨rfl, rfl⟩

/-- Settles O37: by the steps' output, and by comparing two runs that differ in `OUT`. -/
theorem onlyPrnAppendsToOutAndNothingReadsIt :
    Obligations.OnlyPrnAppendsToOutAndNothingReadsIt := by
  refine ⟨fun spInit image s h => ?_, fun r s => ⟨_, exec_prn s r, rfl⟩, fun s t h => ?_,
    fun i s t o h => ?_⟩
  · obtain ⟨m, -, rfl⟩ := launch_ok h
    rfl
  · obtain e | ⟨k, hrun, hf, e⟩ := step_out h
    · exact .inl e
    · obtain ⟨-, hop, hi⟩ := fetch_ok hf
      exact .inr ⟨hrun, hop, k, (Instr.prn.inj hi).symm, e⟩
  · obtain ⟨u, hu, ha⟩ := exec_next_alike (.withOut i s o) h
    exact ⟨u, hu, fun _ => ha.reg_eq rfl, ha.pc, ha.flags_eq rfl, ⟨ha.run, ha.fault⟩, ha.sameMem⟩

end Sys2Proof.Machine

/-! ### The program counter -/

namespace Sys2Proof.Machine

/-- Whether an instruction that completes in `s` transfers control: CALL, RET and JMP do, JEQ and
JNE when they are taken (10_state.md R20). -/
def transfers (s : State) : Mnemonic → Bool
  | .call | .ret | .jmp => true
  | .jeq => s.flags.equal
  | .jne => !s.flags.equal
  | .hlt | .ldi | .prn | .add | .sub | .mul | .div | .cmp | .push | .pop => false

/-- A transfer goes to an 8-bit address. -/
theorem Effect.pc_of_transfer {s t : State} {i : Instr} (h : Effect s i t)
    (hrun : t.run = .running) (hi : transfers s i.mnemonic = true) : t.pc.toNat ≤ 255 := by
  cases h with
  | fault | hlt => cases hrun
  | call | ret | jmp | jeqTaken | jneTaken => exact zext9_toNat_le _
  | jeqNotTaken k hv he | jneNotTaken k hv he => simp [transfers, Instr.mnemonic, he] at hi
  | _ => cases hi

/-- An instruction that is no transfer moves `pc` on by its length. -/
theorem Effect.pc_of_no_transfer {s t : State} {i : Instr} (h : Effect s i t)
    (hrun : t.run = .running) (hi : transfers s i.mnemonic = false) :
    t.pc = s.pc + BitVec.ofNat 9 i.length := by
  cases h with
  | fault | hlt => cases hrun
  | call | ret | jmp => cases hi
  | jeqTaken k hv he | jneTaken k hv he => simp [transfers, Instr.mnemonic, he] at hi
  | _ => rfl

/-- Settles O30: by the effects, one by one. -/
theorem pcAfterEachInstruction : Obligations.PcAfterEachInstruction := by
  refine ⟨fun opc i => by cases i <;> rfl, fun i s t hrun h => ⟨fun hf => ?_, fun hn => ?_⟩⟩
  · obtain ⟨r, -, rfl⟩ | ⟨-, -, ht⟩ := exec_fault_cases h
    · rfl
    · rw [ht, hrun] at hf
      split at hf <;> cases hf
  · cases exec_effect h with
    | fault => exact absurd rfl hn
    | call | jmp => simp only [jump_pc, regAt_regByte]
    | jeqTaken k hv he | jneTaken k hv he | jeqNotTaken k hv he | jneNotTaken k hv he => simp [he]
    | _ => rfl

/-- A step from at most 256 leaves `pc` there, and moves it in one of three ways. -/
theorem step_pc {s t : State} (hpc : s.pc.toNat ≤ 256) (h : step s = .next t) :
    t.pc.toNat ≤ 256 ∧ (t.pc = s.pc ∨ t.pc.toNat ≤ 255 ∨
      ∃ i, s.fetch defaultOpc = .ok i ∧ t.pc.toNat = s.pc.toNat + i.length) := by
  obtain ⟨-, rfl⟩ | ⟨-, r, -, rfl⟩ | ⟨-, i, hf, -, he⟩ := step_effect h
  · exact ⟨hpc, .inl rfl⟩
  · exact ⟨hpc, .inl rfl⟩
  · obtain e | ⟨v, e⟩ | e := he.pc
    · exact ⟨e ▸ hpc, .inl e⟩
    · have hv : t.pc.toNat ≤ 255 := e ▸ zext9_toNat_le v
      exact ⟨hv.trans (by decide), .inr (.inl hv)⟩
    · obtain ⟨hlen, -⟩ := fetch_ok hf
      have hadv : t.pc.toNat = s.pc.toNat + i.length := e ▸ advance_toNat hlen
      exact ⟨hadv ▸ hlen, .inr (.inr ⟨i, hf, hadv⟩)⟩

/-- Settles O31: a fetched instruction lies in memory, so an advance by its length ends at most at
256, and every transfer goes to an 8-bit address. -/
theorem pcDoesNotWrap : Obligations.PcDoesNotWrap := by
  refine ⟨fun s t hpc h => step_pc hpc h, fun s t i hpc hrun hf h ht => ?_, fun s hrun hpc => ?_⟩
  · have he : Effect s i t := exec_effect ((stepWith_of_fetch hrun hf).symm.trans h)
    obtain ⟨hlen, -⟩ := fetch_ok hf
    have hadv (hi : transfers s i.mnemonic = false) : t.pc.toNat = s.pc.toNat + i.length :=
      he.pc_of_no_transfer ht hi ▸ advance_toNat hlen
    have hjump (hi : transfers s i.mnemonic = true) : t.pc.toNat ≤ 255 := he.pc_of_transfer ht hi
    refine ⟨fun hi => hadv ?_, fun hi hq => ?_, fun hi hq => ?_, fun hi => hjump ?_,
      fun hi hq => hjump ?_, fun hi hq => hjump ?_⟩
    · revert hi
      cases i.mnemonic <;> simp [transfers]
    · rw [hadv (by simp [hi, transfers, hq]), Instr.length, hi]
      rfl
    · rw [hadv (by simp [hi, transfers, hq]), Instr.length, hi]
      rfl
    · revert hi
      cases i.mnemonic <;> simp [transfers]
    · simp [hi, transfers, hq]
    · simp [hi, transfers, hq]
  · obtain ⟨-, e⟩ | ⟨hlt, -⟩ | ⟨m, hlt, -⟩ | ⟨m, hlt, -⟩ | ⟨m, hlt, -⟩ := fetch_cases defaultOpc s
    · have hstep : step s = .next (s.takeFault ⟨.outOfRange, s.pc⟩) :=
        stepWith_of_fetch_error hrun e
      rw [hstep, State.takeFault, hpc]
    all_goals simp [hpc] at hlt

end Sys2Proof.Machine

/-! ### Memory accesses -/

namespace Sys2Proof.Machine

theorem memRead_of_le (s : State) {a : Nat} (h : a ≤ 255) : s.memRead a = .ok (s.mem.read a) :=
  if_pos (Nat.lt_succ_of_le h)

theorem memRead_of_gt (s : State) {a : Nat} (h : 255 < a) :
    s.memRead a = .error ⟨.outOfRange, BitVec.ofNat 9 a⟩ := if_neg (Nat.not_lt.2 h)

theorem memWrite_of_le (s : State) {a : Nat} (v : Byte) (h : a ≤ 255) :
    s.memWrite a v = .ok (s.setMem (s.mem.write a v)) := if_pos (Nat.lt_succ_of_le h)

theorem memWrite_of_gt (s : State) {a : Nat} (v : Byte) (h : 255 < a) :
    s.memWrite a v = .error ⟨.outOfRange, BitVec.ofNat 9 a⟩ := if_neg (Nat.not_lt.2 h)

/-- Settles O34: by the two answers of an access, and by reading after writing. -/
theorem memoryReadsAndWritesFollowTheContract :
    Obligations.MemoryReadsAndWritesFollowTheContract := by
  refine fun s a v => ⟨fun ha => ?_, fun ha => ?_⟩
  · refine ⟨memRead_of_le s ha, _, memWrite_of_le s v ha, ?_, fun b hb hne => ?_, fun _ => rfl,
      rfl, rfl, ⟨rfl, rfl⟩, rfl⟩
    · rw [memRead_of_le _ ha, setMem_mem, Memory.read_write_same]
    · rw [memRead_of_le _ hb, memRead_of_le s hb, setMem_mem, Memory.read_write_ne _ v hne]
  · exact ⟨_, memRead_of_gt s ha, memWrite_of_gt s v ha, rfl,
      fun hinfo => (BitVec.toNat_ofNat ..).trans (Nat.mod_eq_of_lt (Nat.lt_succ_of_le hinfo))⟩

/-! ### The one cell an instruction writes -/

/-- One write leaves every other cell as it was. -/
theorem sameMemExcept_of_write {s t : State} {a : Nat} {v : Byte}
    (h : t.mem = s.mem.write a v) : SameMemExcept a s t :=
  fun _ hb => h ▸ Memory.read_write_ne s.mem v hb

/-- What a step does to memory: nothing, or what a PUSH or CALL at `pc` does. -/
theorem step_mem {s t : State} (h : step s = .next t) :
    t.mem = s.mem ∨ s.run = .running ∧
      (s.mem.read s.pc.toNat = defaultOpc .push ∨ s.mem.read s.pc.toNat = defaultOpc .call) ∧
      ∃ v, t.mem = s.mem.write s.decrementSp.sp.toNat v := by
  obtain ⟨-, rfl⟩ | ⟨-, r, -, rfl⟩ | ⟨hrun, i, hf, -, he⟩ := step_effect h
  · exact .inl rfl
  · exact .inl rfl
  · obtain e | ⟨hi, hw⟩ := he.mem
    · exact .inl e
    · obtain ⟨-, hop, -⟩ := fetch_ok hf
      exact .inr ⟨hrun, hi.imp (hop.trans <| congrArg _ ·) (hop.trans <| congrArg _ ·),
        sp_decrementSp s ▸ hw⟩

/-- Settles O35: by what a step does to memory. -/
theorem onlyPushAndCallWriteOneCell : Obligations.OnlyPushAndCallWriteOneCell := by
  intro s t h
  obtain e | ⟨hrun, hop, v, e⟩ := step_mem h
  · exact .inl fun a => by rw [e]
  · exact .inr ⟨hrun, sameMemExcept_of_write e, hop⟩

/-! ### The pushed byte -/

/-- What PUSH does to `SP` and memory: the register, read after the decrement, at the new `SP`. -/
theorem push_sp_mem {r : RegIdx} {s t : State} (h : exec (.push (regByte r)) s = .next t) :
    t.sp = s.decrementSp.sp ∧
      t.mem = s.mem.write s.decrementSp.sp.toNat (s.decrementSp.reg r) := by
  cases (exec_push s r).symm.trans h
  exact ⟨rfl, by rw [sp_decrementSp]; rfl⟩

/-- What a CALL that completes does to `SP` and memory: the return address at the new `SP`. -/
theorem call_sp_mem {r : RegIdx} {s t : State} (hpc : s.pc.toNat + 2 ≤ 255)
    (h : exec (.call (regByte r)) s = .next t) :
    t.sp = s.decrementSp.sp ∧
      t.mem = s.mem.write s.decrementSp.sp.toNat (BitVec.ofNat 8 (s.pc.toNat + 2)) := by
  cases (exec_call s r hpc).symm.trans h
  refine ⟨rfl, ?_⟩
  rw [sp_decrementSp, ← BitVec.ofInt_natCast]
  rfl

/-- After one write, each byte the fetch looks at is the written one in that cell and the old one
elsewhere. -/
theorem window_get_of_write {s t : State} {a k : Nat} {v : Byte} (h : t.mem = s.mem.write a v)
    (hk : k < 3) (hpc : t.pc.toNat + k ≤ 255) :
    t.window[k]? =
      some (if t.pc.toNat + k = a then v else s.mem.read (t.pc.toNat + k)) := by
  rw [window_get hk (Nat.lt_succ_of_le hpc), h, Memory.read_write]

/-- Settles O36: PUSH and CALL each make one write, and the fetch reads memory as it then is. -/
theorem pushedByteIsSeenByTheNextFetch : Obligations.PushedByteIsSeenByTheNextFetch := by
  refine ⟨fun r s t k h hk ht => ?_, fun r s t k hpc h hk ht => ?_⟩
  · obtain ⟨-, hmem⟩ := push_sp_mem h
    exact window_get_of_write hmem hk ht
  · obtain ⟨-, hmem⟩ := call_sp_mem hpc h
    exact window_get_of_write hmem hk ht

/-! ### The wrap of the stack pointer -/

theorem decrementSp_wraps {s : State} (h : s.sp.toNat = 0) : s.decrementSp.sp.toNat = 255 := by
  rw [sp_decrementSp, BitVec.toNat_sub, h]
  rfl

theorem incrementSp_wraps {s : State} (h : s.sp.toNat = 255) : s.incrementSp.sp.toNat = 0 := by
  rw [sp_incrementSp, BitVec.toNat_add, h]
  rfl

/-- A push from `SP = 0` leaves `SP` at 255 and writes cell 255 alone. -/
theorem pushed_at_255 {s t : State} {v : Byte} (h0 : s.sp.toNat = 0)
    (h : t.sp = s.decrementSp.sp ∧ t.mem = s.mem.write s.decrementSp.sp.toNat v) :
    t.sp.toNat = 255 ∧ t.mem.read 255 = v ∧ SameMemExcept 255 s t := by
  obtain ⟨hsp, hmem⟩ := h
  rw [decrementSp_wraps h0] at hmem
  exact ⟨hsp ▸ decrementSp_wraps h0, hmem ▸ Memory.read_write_same .., sameMemExcept_of_write hmem⟩

/-- Settles O23: by the completions of the four stack instructions, none of which is a fault. -/
theorem stackPointerWrapsWithoutAFault : Obligations.StackPointerWrapsWithoutAFault := by
  refine ⟨fun r s t h0 h => pushed_at_255 h0 (push_sp_mem h), fun r s t h0 hpc h => ?_,
    fun r s t hsp hr h => ?_, fun s t hsp h => ?_, fun r s t h => ?_⟩
  · obtain ⟨ht, hread, hrest⟩ := pushed_at_255 h0 (call_sp_mem hpc h)
    have hbyte : (BitVec.ofNat 8 (s.pc.toNat + 2)).toNat = s.pc.toNat + 2 :=
      (BitVec.toNat_ofNat ..).trans (Nat.mod_eq_of_lt (Nat.lt_succ_of_le hpc))
    exact ⟨ht, hread ▸ hbyte, hrest⟩
  · cases (exec_pop s r).symm.trans h
    have hkeep (v : Byte) : (s.setReg r v).sp = s.sp := reg_setReg_ne s v (Ne.symm hr)
    refine ⟨?_, incrementSp_wraps (by rw [hkeep, hsp])⟩
    rw [advance_reg, reg_incrementSp, if_neg hr, reg_setReg_same, hsp]
  · cases (exec_ret s).symm.trans h
    exact ⟨by rw [incrementSp_pc, jump_pc, hsp], incrementSp_wraps hsp⟩
  · obtain h | h | h | ⟨hpc, h⟩ := h
    · cases (exec_push s r).symm.trans h
      exact ⟨rfl, rfl⟩
    · cases (exec_pop s r).symm.trans h
      exact ⟨rfl, rfl⟩
    · cases (exec_ret s).symm.trans h
      exact ⟨rfl, rfl⟩
    · cases (exec_call s r hpc).symm.trans h
      exact ⟨rfl, rfl⟩

end Sys2Proof.Machine

/-! ### Encoding and decoding -/

namespace Sys2Proof

/-- Decoding goes from the opcode byte's mnemonic to its operand bytes. -/
theorem decode_of_lookup {opc : Mnemonic → Byte} {op : Byte} {m : Mnemonic}
    (h : lookupOpcode opc op = some m) (bytes : List Byte) :
    decode opc (op :: bytes) = decodeOperands m m.format.operandCount bytes := by
  simp only [decode, h]

/-- Bytes that decode have an opcode byte that is found. -/
theorem decode_ok {opc : Mnemonic → Byte} {bytes : List Byte} {x : Instr × List Byte}
    (h : decode opc bytes = .ok x) :
    ∃ op rest m, bytes = op :: rest ∧ lookupOpcode opc op = some m ∧
      decodeOperands m m.format.operandCount rest = .ok x := by
  cases bytes with
  | nil => cases h
  | cons op rest =>
    cases hl : lookupOpcode opc op with
    | none => simp [decode, hl] at h
    | some m => exact ⟨op, rest, m, rfl, hl, decode_of_lookup hl rest ▸ h⟩

theorem decodeOperands_operandBytes (i : Instr) (rest : List Byte) :
    decodeOperands i.mnemonic i.mnemonic.format.operandCount (i.operandBytes ++ rest) =
      .ok (i, rest) := by
  cases i <;> rfl

/-- A mnemonic's instruction keeps as many operand bytes as the format has. -/
theorem Mnemonic.operandBytes_build (m : Mnemonic) (a b : Byte) :
    (m.build a b).operandBytes = [a, b].take m.format.operandCount := by
  cases m <;> rfl

/-- Given enough bytes, the first ones are the operand bytes and the others are left. -/
theorem decodeOperands_of_le {m : Mnemonic} {bytes : List Byte}
    (h : m.format.operandCount ≤ bytes.length) :
    ∃ i, decodeOperands m m.format.operandCount bytes =
        .ok (i, bytes.drop m.format.operandCount) ∧
      i.mnemonic = m ∧ i.operandBytes = bytes.take m.format.operandCount := by
  obtain ⟨hn, e⟩ | ⟨a, rest, hn, rfl, e⟩ | ⟨a, b, rest, hn, rfl, e⟩ | ⟨hn, rfl, -⟩ |
    ⟨a, hn, rfl, -⟩ := decodeOperands_cases m bytes
  · exact ⟨_, by rw [e, hn, List.drop_zero], m.mnemonic_build _ _,
      by rw [m.operandBytes_build, hn, List.take_zero, List.take_zero]⟩
  · exact ⟨_, by rw [e, hn]; rfl, m.mnemonic_build _ _, by rw [m.operandBytes_build, hn]; rfl⟩
  · exact ⟨_, by rw [e, hn]; rfl, m.mnemonic_build _ _, by rw [m.operandBytes_build, hn]; rfl⟩
  · exact absurd (hn.trans h) (by decide)
  · exact absurd (hn ▸ h) (by decide : ¬ 2 ≤ 1)

/-- Given too few bytes, the first missing operand byte is named. -/
theorem decodeOperands_of_lt {m : Mnemonic} {bytes : List Byte}
    (h : bytes.length < m.format.operandCount) :
    decodeOperands m m.format.operandCount bytes = .error (.missingOperand (bytes.length + 1)) := by
  obtain ⟨hn, -⟩ | ⟨a, rest, hn, rfl, -⟩ | ⟨a, b, rest, hn, rfl, -⟩ | ⟨-, rfl, e⟩ |
    ⟨a, -, rfl, e⟩ := decodeOperands_cases m bytes
  · simp [hn] at h
  · simp [hn] at h
  · simp [hn] at h
  · exact e
  · exact e

/-- Settles O1: the opcode byte is found as the mnemonic, whose operand bytes are then read back. -/
theorem decodeUndoesEncode : Obligations.DecodeUndoesEncode := fun _ hopc i rest =>
  (decode_of_lookup (lookupOpcode_opc hopc i.mnemonic) _).trans
    (decodeOperands_operandBytes i rest)

/-- Settles O2: the byte looked up is the mnemonic's, and the operand bytes were read as they
stand. -/
theorem encodeUndoesDecode : Obligations.EncodeUndoesDecode := by
  intro opc bytes i rest h
  obtain ⟨op, tail, m, rfl, hl, hd⟩ := decode_ok h
  rcases Nat.lt_or_ge tail.length m.format.operandCount with hlt | hle
  · cases hd.symm.trans (decodeOperands_of_lt hlt)
  · obtain ⟨j, hj, rfl, hbytes⟩ := decodeOperands_of_le hle
    cases hd.symm.trans hj
    rw [encode, lookupOpcode_some hl, hbytes, List.cons_append, List.take_append_drop]

/-- Settles O3: the mnemonic found settles how many operand bytes are read. -/
theorem lengthIsFoundFromTheOpcodeByte : Obligations.LengthIsFoundFromTheOpcodeByte := by
  intro opc op m bytes hl
  rw [decode_of_lookup hl]
  refine ⟨fun hle => ?_, decodeOperands_of_lt⟩
  obtain ⟨i, hi, rfl, hbytes⟩ := decodeOperands_of_le hle
  exact ⟨i, hi, rfl, hbytes, rfl, Nat.le_add_right 1 _, i.length_le⟩

/-- Settles O5: seven of the byte strings are encodings, and the last lacks a byte. -/
theorem specBytesDecode : Obligations.SpecBytesDecode := by
  have decoded := decodeUndoesEncode defaultOpc defaultOpc_injective
  exact ⟨decoded (.ldi 0 8) [], decoded (.mul 0 1) [], decoded (.prn 0) [], decoded .hlt [],
    decoded (.push 7) [0b01000110, 1], decoded (.call 1) [], decoded (.jeq 2) [],
    (decode_of_lookup (lookupOpcode_opc defaultOpc_injective .cmp) [0]).trans
      (decodeOperands_of_lt (by decide))⟩

/-- Under an injective map the byte values that are found are the 15 opcode bytes. -/
theorem filter_known_perm {opc : Mnemonic → Byte} (hopc : OpcInjective opc) :
    ((List.range 256).filter
      fun n => !(lookupOpcode opc (BitVec.ofNat 8 n)).isNone).Perm
        (Mnemonic.all.map fun m => (opc m).toNat) := by
  refine (List.perm_ext_iff_of_nodup (List.nodup_range.filter _) ?_).2 fun n => ?_
  · exact List.Nodup.map (fun m m' h => hopc m m' (BitVec.eq_of_toNat_eq h)) (by decide)
  · rw [List.mem_filter, List.mem_range, List.mem_map]
    constructor
    · rintro ⟨hn, h⟩
      obtain ⟨m, hm⟩ := Option.isSome_iff_exists.1 (by simpa using h)
      refine ⟨m, m.mem_all, ?_⟩
      rw [lookupOpcode_some hm, BitVec.toNat_ofNat, Nat.mod_eq_of_lt hn]
    · rintro ⟨m, -, rfl⟩
      rw [BitVec.ofNat_toNat, BitVec.setWidth_eq, lookupOpcode_opc hopc]
      exact ⟨(opc m).isLt, rfl⟩

/-- An injective map leaves 241 of the 256 byte values unknown. -/
theorem length_filter_unknown {opc : Mnemonic → Byte} (hopc : OpcInjective opc) :
    ((List.range 256).filter fun n => (lookupOpcode opc (BitVec.ofNat 8 n)).isNone).length =
      241 := by
  have hsplit := List.length_eq_length_filter_add (l := List.range 256)
    fun n => (lookupOpcode opc (BitVec.ofNat 8 n)).isNone
  rw [(filter_known_perm hopc).length_eq, List.length_range, List.length_map] at hsplit
  exact Nat.add_right_cancel (m := Mnemonic.all.length) hsplit.symm

end Sys2Proof

/-! ### Fetching the bytes at `pc` -/

namespace Sys2Proof.Machine

/-- A byte at `pc` that is no opcode makes the fetch raise `UnknownOpcode` of it. -/
theorem fetch_unknown {opc : Mnemonic → Byte} {s : State} (hpc : s.pc.toNat < memSize)
    (h : lookupOpcode opc (s.mem.read s.pc.toNat) = none) :
    s.fetch opc = .error ⟨.unknownOpcode, zext9 (s.mem.read s.pc.toNat)⟩ := by
  obtain ⟨hge, -⟩ | ⟨-, -, e⟩ | ⟨m, -, hm, -⟩ | ⟨m, -, hm, -⟩ | ⟨m, -, hm, -⟩ := fetch_cases opc s
  · exact absurd hpc (Nat.not_lt.2 hge)
  · exact e
  all_goals cases h.symm.trans hm

/-- Settles O4: the fetch raises the fault, and the default map is injective. -/
theorem unknownOpcodeByteFaults : Obligations.UnknownOpcodeByteFaults := by
  refine ⟨fun opc s hrun hpc h => ?_, length_filter_unknown defaultOpc_injective, by decide⟩
  exact stepWith_of_fetch_error hrun
    (fetch_unknown (Nat.lt_succ_of_le hpc) (lookupOpcode_none.2 h))

/-- What the bytes at `pc` decode to is what is fetched. -/
theorem fetch_of_decode {opc : Mnemonic → Byte} {s : State} {i : Instr} {rest : List Byte}
    (h : decode opc s.window = .ok (i, rest)) : s.fetch opc = .ok i := by
  simp only [State.fetch, h]

/-- An instruction whose bytes lie in memory from `pc` on stands first in what the fetch looks
at. -/
theorem encode_prefix_window {opc : Mnemonic → Byte} {s : State} {i : Instr}
    (hlen : s.pc.toNat + i.length ≤ memSize)
    (h : ∀ k, k < i.length → (encode opc i)[k]? = some (s.mem.read (s.pc.toNat + k))) :
    encode opc i <+: s.window := by
  rw [List.prefix_iff_getElem?]
  intro k hk
  rw [length_encode] at hk
  rw [window_get (Nat.lt_of_lt_of_le hk i.length_le) (by omega), ← h k hk, List.getElem?_eq_getElem]

/-- Settles O6: the fetch decodes the instruction's bytes back to it. -/
theorem stepRunsTheInstructionAtPc : Obligations.StepRunsTheInstructionAtPc := by
  intro s i hrun hlen h
  obtain ⟨rest, hw⟩ := encode_prefix_window hlen h
  have hdecode : decode defaultOpc s.window = .ok (i, rest) :=
    hw ▸ decodeUndoesEncode defaultOpc defaultOpc_injective i rest
  exact stepWith_of_fetch hrun (fetch_of_decode hdecode)

/-! ### Placing an instruction -/

/-- Placing bytes that all have a cell leaves every other cell as it was. -/
theorem read_placeInstr_outside {s : State} {bytes : List Byte} {a : Nat}
    (h : s.pc.toNat + bytes.length ≤ memSize)
    (ha : a < s.pc.toNat ∨ s.pc.toNat + bytes.length ≤ a) :
    (s.placeInstr bytes).mem.read a = s.mem.read a :=
  (Memory.read_storeBytes bytes s.mem s.pc.toNat a h).trans (if_neg (by omega))

/-- The bytes stored from `a` up, all of which have a cell, are read back. -/
theorem Memory.bytesFrom_storeBytes (m : Memory) {a : Nat} {vs : List Byte}
    (h : a + vs.length ≤ memSize) : (m.storeBytes a vs).bytesFrom vs.length a = vs := by
  apply List.ext_getElem?
  intro k
  rcases Nat.lt_or_ge k vs.length with hk | hk
  · rw [bytesFrom_get _ hk (by omega), Memory.read_storeBytes vs m a _ h, if_pos (by omega),
      Nat.add_sub_cancel_left, List.getElem?_eq_getElem hk, Option.getD_some]
  · rw [List.getElem?_eq_none hk,
      List.getElem?_eq_none ((bytesFrom_length_le _ _ _).trans hk)]

theorem decodeTableWord_some {nbits w : Nat} {i : Instr} (h : decodeTableWord nbits w = some i) :
    ∃ rest, decode defaultOpc (tableBytes nbits w) = .ok (i, rest) := by
  unfold decodeTableWord at h
  split at h
  · next j rest hd => exact ⟨rest, Option.some.inj h ▸ hd⟩
  · cases h

/-- Settles O45: the next fetch looks at the word's three bytes. -/
theorem placedWordIsRunByTheNextStep : Obligations.PlacedWordIsRunByTheNextStep := by
  intro s nbits w i hpc h
  have hroom : s.pc.toNat + 2 < memSize := Nat.lt_succ_of_le hpc
  obtain ⟨rest, hd⟩ := decodeTableWord_some h
  have hwindow : (s.withFetchWord nbits w).window = tableBytes nbits w :=
    Memory.bytesFrom_storeBytes s.mem (vs := tableBytes nbits w) hroom
  refine ⟨stepWith_of_fetch rfl (fetch_of_decode (hwindow.symm ▸ hd)), fun _ => rfl, rfl, rfl, rfl,
    rfl, fun a ha => read_placeInstr_outside hroom ha⟩

/-! ### The program file -/

/-- A line without a token gives no byte. -/
theorem fileImage_cons_blank {line : List Char} (lines : List (List Char))
    (h : strip (uncomment line) = []) : fileImage (line :: lines) = fileImage lines := by
  simp only [fileImage, h, if_true]

/-- A line whose token is a byte's gives that byte before those of the lines after it. -/
theorem fileImage_cons_token {line token : List Char} {lines : List (List Char)} {b : Byte}
    {bs : List Byte} (htoken : strip (uncomment line) = token) (hne : token ≠ [])
    (hb : tokenByte token = some b) (hbs : fileImage lines = some bs) :
    fileImage (line :: lines) = some (b :: bs) := by
  simp only [fileImage, htoken, if_neg hne, hb, hbs]

/-- The lines before two files that give the same image give it the same start. -/
theorem fileImage_append_congr (before : List (List Char)) {lines lines' : List (List Char)}
    (h : fileImage lines = fileImage lines') :
    fileImage (before ++ lines) = fileImage (before ++ lines') := by
  induction before with
  | nil => exact h
  | cons line before ih => simp only [List.cons_append, fileImage, ih]

theorem strip_of_whitespace {line : List Char} (h : ∀ c ∈ line, c.isWhitespace = true) :
    strip line = [] := by
  have e := strip_token (token := []) (post := []) h (by simp) (by simp)
  rwa [List.append_nil, List.append_nil] at e

theorem digits_binary (digits : List Bool) :
    ∀ c ∈ digits.map (fun d => if d then '1' else '0'), c = '0' ∨ c = '1' := by
  intro c h
  obtain ⟨d, -, rfl⟩ := List.mem_map.1 h
  cases d <;> simp

/-- Base-2 digits below 256 are the byte of their value. -/
theorem tokenByte_digits {digits : List Bool}
    (h : digits.foldl (fun n d => 2 * n + d.toNat) 0 < 256) :
    tokenByte (digits.map fun d => if d then '1' else '0') =
      some (BitVec.ofNat 8 (digits.foldl (fun n d => 2 * n + d.toNat) 0)) := by
  simp only [tokenByte, binaryValue_digits, if_pos h]

/-- The low `k` bits of a number, the highest first, read as base-2 digits after `n`. -/
theorem foldl_testBits (x k n : Nat) :
    ((List.range k).reverse.map x.testBit).foldl (fun n d => 2 * n + d.toNat) n =
      2 ^ k * n + x % 2 ^ k := by
  induction k generalizing n with
  | zero => simp [Nat.mod_one]
  | succ k ih =>
    rw [List.range_succ, List.reverse_append, List.reverse_singleton, List.singleton_append,
      List.map_cons, List.foldl_cons, ih, Nat.mod_pow_succ, ← Nat.toNat_testBit]
    ring

theorem byteDigits_eq (b : Byte) :
    byteDigits b =
      ((List.range 8).reverse.map b.toNat.testBit).map fun d => if d then '1' else '0' := rfl

/-- A byte's eight digits are read as that byte. -/
theorem tokenByte_byteDigits (b : Byte) : tokenByte (byteDigits b) = some b := by
  have hvalue : ((List.range 8).reverse.map b.toNat.testBit).foldl (fun n d => 2 * n + d.toNat) 0 =
      b.toNat := by
    rw [foldl_testBits, Nat.mul_zero, Nat.zero_add, Nat.mod_eq_of_lt b.isLt]
  rw [byteDigits_eq, tokenByte_digits (hvalue.trans_lt b.isLt), hvalue, BitVec.ofNat_toNat,
    BitVec.setWidth_eq]

/-- A file of one byte a line gives its bytes. -/
theorem fileImage_rows (rows : List (List Char × Byte × List Char × List Char))
    (h : ∀ r ∈ rows, (∀ c ∈ r.1 ++ r.2.2.1, c.isWhitespace = true) ∧
      (r.2.2.2 = [] ∨ ∃ comment, r.2.2.2 = '#' :: comment)) :
    fileImage (rows.map fun r => r.1 ++ byteDigits r.2.1 ++ r.2.2.1 ++ r.2.2.2) =
      some (rows.map fun r => r.2.1) := by
  induction rows with
  | nil => rfl
  | cons r rows ih =>
    obtain ⟨⟨hspace, htail⟩, hrows⟩ := List.forall_mem_cons.1 h
    have htoken := token_of_line hspace (byteDigits_binary r.2.1) htail
    exact fileImage_cons_token htoken (byteDigits_ne_nil r.2.1) (tokenByte_byteDigits r.2.1)
      (ih hrows)

/-- Settles O46: line by line, each line giving the byte of its token or none. -/
theorem programFileGivesItsImage : Obligations.ProgramFileGivesItsImage := by
  refine ⟨fileImage_rows, fun before after blank h => ?_, fun digits hne h => ?_⟩
  · exact fileImage_append_congr before (fileImage_cons_blank after (strip_of_whitespace h))
  · have htoken := token_of_line (pre := []) (post := []) (tail := []) (by simp)
      (digits_binary digits) (.inl rfl)
    rw [List.nil_append, List.append_nil, List.append_nil] at htoken
    exact fileImage_cons_token htoken (List.map_eq_nil_iff.not.2 hne) (tokenByte_digits h) rfl

end Sys2Proof.Machine

/-! ### Halting -/

namespace Sys2Proof.Machine

/-- An instruction other than HLT leaves `RUN` as it was or takes a fault. -/
theorem Effect.run {s t : State} {i : Instr} (h : Effect s i t) :
    i = .hlt ∨ t.run = .faulted ∨ t.run = s.run := by
  cases h with
  | hlt => exact .inl rfl
  | fault => exact .inr (.inl rfl)
  | _ => exact .inr (.inr rfl)

/-- HLT is fetched exactly when its opcode byte is at `pc`, the last address included. -/
theorem fetch_hlt_iff {opc : Mnemonic → Byte} (hopc : OpcInjective opc) (s : State) :
    s.fetch opc = .ok .hlt ↔ s.pc.toNat < memSize ∧ s.mem.read s.pc.toNat = opc .hlt := by
  constructor
  · intro h
    obtain ⟨hlen, hop, -⟩ := fetch_ok h
    exact ⟨hlen, hop⟩
  · rintro ⟨hpc, hop⟩
    have hbyte : ∀ k, k < Instr.hlt.length →
        (encode opc .hlt)[k]? = some (s.mem.read (s.pc.toNat + k)) := fun k hk => by
      obtain rfl := Nat.lt_one_iff.1 hk
      exact congrArg some hop.symm
    obtain ⟨rest, hw⟩ := encode_prefix_window (i := .hlt) hpc hbyte
    exact fetch_of_decode (hw ▸ decodeUndoesEncode opc hopc .hlt rest)

/-- A step of a running machine that fetches HLT changes `RUN` alone. -/
theorem step_of_fetch_hlt {s : State} (hrun : s.run = .running)
    (hf : s.fetch defaultOpc = .ok .hlt) : step s = .next (s.setRun .halted) :=
  (stepWith_of_fetch hrun hf).trans (exec_hlt s)

/-- A step that halts a running machine has fetched HLT. -/
theorem fetch_hlt_of_step_halted {s t : State} (hrun : s.run = .running) (h : step s = .next t)
    (ht : t.run = .halted) : s.fetch defaultOpc = .ok .hlt := by
  obtain ⟨hstop, -⟩ | ⟨-, r, -, rfl⟩ | ⟨-, i, hf, -, he⟩ := step_effect h
  · exact absurd hrun hstop
  · cases ht
  · obtain rfl | hfault | hsame := he.run
    · exact hf
    · cases ht.symm.trans hfault
    · cases ht.symm.trans (hsame.trans hrun)

/-- Settles O10: a step halts exactly when it fetches HLT, whose one byte is the opcode at `pc`. -/
theorem hltAloneHaltsAndChangesNothingElse : Obligations.HltAloneHaltsAndChangesNothingElse := by
  refine ⟨fun s => ⟨_, exec_hlt s, rfl, rfl, rfl, fun _ => rfl, rfl, fun _ => rfl, rfl⟩,
    fun _ => rfl, fun s t hrun h => ⟨fun ⟨hpc, hop⟩ => ?_, fun ht => ?_⟩,
    fun s t hrun h ht => ?_⟩
  · have hf := (fetch_hlt_iff defaultOpc_injective s).2 ⟨Nat.lt_succ_of_le hpc, hop⟩
    cases h.symm.trans (step_of_fetch_hlt hrun hf)
    rfl
  · obtain ⟨hpc, hop⟩ :=
      (fetch_hlt_iff defaultOpc_injective s).1 (fetch_hlt_of_step_halted hrun h ht)
    exact ⟨Nat.le_of_lt_succ hpc, hop⟩
  · have hf := fetch_hlt_of_step_halted hrun h ht
    exact Host.Outcome.next.inj (h.symm.trans (step_of_fetch_hlt hrun hf))

end Sys2Proof.Machine

/-! ### Load and print -/

namespace Sys2Proof.Machine

/-- Writing one register and moving on is a straight-line instruction that wrote that register
alone. -/
theorem wroteOnlyRegs_setReg_advance (s : State) (i : RegIdx) (v : Byte) (n : Nat) :
    WroteOnlyRegs [i] n s ((s.setReg i v).advance n) := by
  have hregs : SameRegsExcept [i] s ((s.setReg i v).advance n) :=
    fun _ hj => reg_setReg_ne s v (List.ne_of_not_mem_cons hj)
  exact ⟨rfl, hregs, rfl, ⟨rfl, rfl⟩, fun _ => rfl, rfl⟩

/-- Settles O14: LDI is one register write and an advance by 3 (41_load_and_print.md R65). -/
theorem ldiWritesItsImmediate : Obligations.LdiWritesItsImmediate := fun r imm s =>
  ⟨_, exec_ldi s r imm, reg_setReg_same s r imm, wroteOnlyRegs_setReg_advance s r imm 3⟩

/-- Settles O15: PRN is one emission and an advance by 2, and neither writes a register, a flag or
memory (41_load_and_print.md R66). -/
theorem prnAppendsItsRegister : Obligations.PrnAppendsItsRegister := fun r s =>
  ⟨_, exec_prn s r, emit_out s (s.reg r), rfl, fun _ _ => rfl, rfl, ⟨rfl, rfl⟩, fun _ => rfl⟩

end Sys2Proof.Machine

/-! ### The ALU -/

namespace Sys2Proof.Machine

/-- An instruction that ends in one register write, reduced modulo 256, and an advance by 3 answers
that result and changes nothing else (42_alu.md R67, R68). -/
theorem writes_result_of_exec {i : Instr} {s : State} {a : RegIdx} {n : Int}
    (h : exec i s = .next ((s.setReg a (wrap8 n)).advance 3)) :
    ∃ t, exec i s = .next t ∧ ((t.reg a).toNat : Int) = n % 256 ∧ WroteOnlyRegs [a] 3 s t := by
  refine ⟨_, h, ?_, wroteOnlyRegs_setReg_advance s a _ 3⟩
  rw [advance_reg, reg_setReg_same, wrap8_toNat]

/-- Settles O16: each of the three ends in one register write reduced modulo 256 (42_alu.md R69,
R70, R71). -/
theorem addSubMulWriteTheResultModulo256 : Obligations.AddSubMulWriteTheResultModulo256 := by
  intro a b s
  refine ⟨?_, writes_result_of_exec (exec_sub s a b), ?_⟩
  · exact_mod_cast writes_result_of_exec (exec_add s a b)
  · exact_mod_cast writes_result_of_exec (exec_mul s a b)

/-- The quotient of two bytes fits in a byte, so the reduction modulo 256 does not change it. -/
theorem wrap8_div_toNat (x y : Byte) :
    (wrap8 ((x.toNat : Int) / y.toNat)).toNat = x.toNat / y.toNat := by
  have hlt : x.toNat / y.toNat < 256 := (Nat.div_le_self _ _).trans_lt x.isLt
  exact_mod_cast wrap8_natCast_toNat hlt

/-- Settles O17: on a divisor that is not 0 the register written is the natural quotient, and on 0
the fault is taken in the state as it was (42_alu.md R72, 60_exceptions.md R88). -/
theorem divWritesTheQuotientOrFaults : Obligations.DivWritesTheQuotientOrFaults := by
  intro a b s
  refine ⟨fun hb => ?_, fun hb => exec_div_zero s a b (BitVec.eq_of_toNat_eq hb)⟩
  have hne : s.reg b ≠ 0 := fun h0 => hb (congrArg BitVec.toNat h0)
  refine ⟨_, exec_div_pos s a b hne, ?_, ?_, wroteOnlyRegs_setReg_advance s a _ 3⟩ <;>
    rw [advance_reg, reg_setReg_same, wrap8_div_toNat]
  · exact Nat.div_mul_le_self _ _
  · exact (Nat.div_lt_iff_lt_mul (Nat.pos_of_ne_zero hb)).1 (Nat.lt_succ_self _)

/-- Settles O18: the flags CMP sets are those of the comparison, and it writes nothing else
(42_alu.md R73). -/
theorem cmpSetsExactlyOneFlag : Obligations.CmpSetsExactlyOneFlag := fun a b s =>
  ⟨_, exec_cmp s a b, decide_eq_true_iff, decide_eq_true_iff, decide_eq_true_iff, rfl,
    compareFlags_exactlyOne _ _, rfl, fun _ _ => rfl, ⟨rfl, rfl⟩, fun _ => rfl, rfl⟩

/-- Subtracting what was added gives the byte back, whether or not the sum wrapped
(42_alu.md R75). -/
theorem wrap8_sub_wrap8_add (x y : Byte) :
    wrap8 ((wrap8 (x.toNat + y.toNat)).toNat - y.toNat) = x := by
  apply BitVec.eq_of_toNat_eq
  have hsum := wrap8_toNat (x.toNat + y.toNat)
  have hdiff := wrap8_toNat ((wrap8 (x.toNat + y.toNat)).toNat - y.toNat)
  omega

/-- Settles O19: ADD leaves the second register for SUB to read when it is not the first
(42_alu.md R75). -/
theorem subUndoesAdd : Obligations.SubUndoesAdd := by
  constructor
  · intro a b s hab
    refine ⟨_, _, exec_add s a b, exec_sub _ a b, fun i => ?_⟩
    simp only [advance_reg, reg_setReg_same, reg_setReg_ne s _ hab.symm, wrap8_sub_wrap8_add]
    by_cases hi : i = a
    · rw [hi, reg_setReg_same]
    · rw [reg_setReg_ne _ _ hi, advance_reg, reg_setReg_ne _ _ hi]
  · intro a s
    obtain ⟨t, ht, hres, -⟩ := writes_result_of_exec (exec_sub s a a)
    exact ⟨t, ht, by omega⟩

end Sys2Proof.Machine

/-! ### The stack -/

namespace Sys2Proof.Machine

theorem decrementSp_sp_toNat (s : State) : s.decrementSp.sp.toNat = (s.sp.toNat + 255) % 256 := by
  rw [sp_decrementSp, BitVec.toNat_sub, Nat.add_comm]
  rfl

/-- PUSH writes no register but `SP`. -/
theorem push_regs {r : RegIdx} {s t : State} (h : exec (.push (regByte r)) s = .next t) :
    SameRegsExcept [spIdx] s t := by
  cases (exec_push s r).symm.trans h
  exact fun i hi => (reg_decrementSp s i).trans (if_neg (List.ne_of_not_mem_cons hi))

/-- Settles O20: PUSH's one write is at the decremented `SP`, and the register it stores is read
after the decrement, so that PUSH of `SP` stores the new `SP` (43_stack.md R76, R77). -/
theorem pushStoresBelowTheStackPointer : Obligations.PushStoresBelowTheStackPointer := by
  intro r s
  have h := exec_push s r
  obtain ⟨hsp, hmem⟩ := push_sp_mem h
  have hstored : s.decrementSp.reg r = if r = spIdx then s.decrementSp.sp else s.reg r := by
    rw [reg_decrementSp, sp_decrementSp]
  refine ⟨_, h, decrementSp_sp_toNat s, hsp, ?_, sameMemExcept_of_write hmem, push_regs h, rfl, rfl,
    ⟨rfl, rfl⟩, rfl⟩
  rw [hmem, Memory.read_write_same, hstored]

/-- A register write changes `SP` when `SP` is the register written. -/
theorem sp_setReg (s : State) (i : RegIdx) (v : Byte) :
    (s.setReg i v).sp = if i = spIdx then v else s.sp :=
  (reg_setReg s i spIdx v).trans (if_congr eq_comm rfl rfl)

/-- What POP leaves in each register: `SP` is one more than it was, or than the loaded byte where
POP loads `SP`; the destination, when it is not `SP`, holds the loaded byte. -/
theorem pop_reg {r : RegIdx} {s t : State} (h : exec (.pop (regByte r)) s = .next t) (i : RegIdx) :
    t.reg i =
      if i = spIdx then (if r = spIdx then s.mem.read s.sp.toNat else s.sp) + 1
      else if i = r then s.mem.read s.sp.toNat else s.reg i := by
  cases (exec_pop s r).symm.trans h
  rw [advance_reg, reg_incrementSp, sp_setReg, reg_setReg]

theorem pop_sp {r : RegIdx} {s t : State} (h : exec (.pop (regByte r)) s = .next t) :
    t.sp = (if r = spIdx then s.mem.read s.sp.toNat else s.sp) + 1 :=
  (pop_reg h spIdx).trans (if_pos rfl)

/-- POP into a register other than `SP` loads the byte at the old `SP`. -/
theorem pop_dest {r : RegIdx} {s t : State} (h : exec (.pop (regByte r)) s = .next t)
    (hr : r ≠ spIdx) : t.reg r = s.mem.read s.sp.toNat := by
  rw [pop_reg h, if_neg hr, if_pos rfl]

/-- POP writes `SP` and its destination, moves on by 2 and changes nothing else. -/
theorem pop_wroteOnlyRegs {r : RegIdx} {s t : State} (h : exec (.pop (regByte r)) s = .next t) :
    WroteOnlyRegs [spIdx, r] 2 s t := by
  have hregs : SameRegsExcept [spIdx, r] s t := fun i hi => by
    obtain ⟨hsp, hi⟩ := List.ne_and_not_mem_of_not_mem_cons hi
    rw [pop_reg h, if_neg hsp, if_neg (List.ne_of_not_mem_cons hi)]
  cases (exec_pop s r).symm.trans h
  exact ⟨rfl, hregs, rfl, ⟨rfl, rfl⟩, fun _ => rfl, rfl⟩

/-- Settles O21: the load comes first and the increment second, so that POP into `SP` leaves one
more than the loaded byte (43_stack.md R76, R78). -/
theorem popLoadsFromTheStackPointer : Obligations.PopLoadsFromTheStackPointer := by
  intro r s
  have h := exec_pop s r
  refine ⟨_, h, fun hr => ⟨pop_dest h hr, ?_⟩, fun hr => ?_, pop_wroteOnlyRegs h⟩
  · rw [pop_sp h, if_neg hr, BitVec.toNat_add]
    rfl
  · rw [pop_sp h, if_pos hr, BitVec.toNat_add]
    rfl

/-- Settles O22: POP reads the cell PUSH wrote, at the `SP` PUSH left, and the increment takes back
the decrement (43_stack.md R77, R78). -/
theorem popUndoesPush : Obligations.PopUndoesPush := by
  intro a b s ha hb
  obtain ⟨t, hpush, -⟩ := exec_effect_of (.push (regByte a)) s
  obtain ⟨u, hpop, -⟩ := exec_effect_of (.pop (regByte b)) t
  obtain ⟨hsp, hmem⟩ := push_sp_mem hpush
  have hrestored : u.sp = s.sp := by
    rw [pop_sp hpop, if_neg hb, hsp, sp_decrementSp, BitVec.sub_add_cancel]
  refine ⟨t, u, hpush, hpop, ?_, hrestored, fun i hi => ?_⟩
  · rw [pop_dest hpop hb, hsp, hmem, Memory.read_write_same, reg_decrementSp, if_neg ha]
  · by_cases his : i = spIdx
    · exact his ▸ hrestored
    · rw [pop_reg hpop, if_neg his, if_neg (List.ne_of_not_mem_cons hi)]
      exact push_regs hpush i (mt List.mem_singleton.1 his)

end Sys2Proof.Machine

/-! ### Control transfer -/

namespace Sys2Proof.Machine

/-- A state that differs in `pc` alone keeps everything else. -/
theorem frame_of_pc (s : State) (p : PcWord) :
    SameRegsExcept [] s { s with pc := p } ∧ { s with pc := p }.flags = s.flags ∧
      SameStatus s { s with pc := p } ∧ SameMem s { s with pc := p } ∧
      { s with pc := p }.out = s.out :=
  ⟨fun _ _ => rfl, rfl, ⟨rfl, rfl⟩, fun _ => rfl, rfl⟩

/-- Settles O27: JMP is one jump to its register's value (44_control_transfer.md R82). -/
theorem jmpGoesToItsRegister : Obligations.JmpGoesToItsRegister := fun r s =>
  ⟨_, exec_jmp s r, zext9_toNat (s.reg r), frame_of_pc s _⟩

/-- JEQ on valid flags jumps when Equal is set (44_control_transfer.md R83). -/
theorem exec_jeq {s : State} (r : RegIdx) (hv : s.flags.valid = true) :
    exec (.jeq (regByte r)) s =
      .next (if s.flags.equal = true then s.jump (s.reg r) else s.advance 2) :=
  condJump_valid s r true hv

/-- JNE on valid flags jumps when Equal is clear (44_control_transfer.md R84). -/
theorem exec_jne {s : State} (r : RegIdx) (hv : s.flags.valid = true) :
    exec (.jne (regByte r)) s =
      .next (if s.flags.equal = false then s.jump (s.reg r) else s.advance 2) :=
  condJump_valid s r false hv

/-- Settles O28: by the value of Equal; a jump and an advance both change `pc` alone. -/
theorem jeqJneFollowTheEqualFlag : Obligations.JeqJneFollowTheEqualFlag := by
  intro r s hv
  have hjeq := exec_jeq r hv
  have hjne := exec_jne r hv
  cases he : s.flags.equal with
  | true =>
    rw [if_pos he] at hjeq
    rw [if_neg (by simp [he])] at hjne
    exact ⟨_, _, hjeq, hjne, fun _ => ⟨rfl, rfl⟩, nofun, frame_of_pc s _, frame_of_pc s _⟩
  | false =>
    rw [if_neg (by simp [he])] at hjeq
    rw [if_pos he] at hjne
    exact ⟨_, _, hjeq, hjne, nofun, fun _ => ⟨rfl, rfl⟩, frame_of_pc s _, frame_of_pc s _⟩

/-- Settles O24: a CALL that completes makes one write, at the decremented `SP`, and reads its
register after the decrement; at the end of memory it faults first (44_control_transfer.md R80). -/
theorem callPushesTheReturnAddressAndJumps : Obligations.CallPushesTheReturnAddressAndJumps := by
  refine fun r s => ⟨fun hpc => ?_, exec_call_end s r⟩
  have h := exec_call s r hpc
  obtain ⟨hsp, hmem⟩ := call_sp_mem hpc h
  have hregs : SameRegsExcept [spIdx] s _ := (exec_effect h).regs
  have htarget : s.decrementSp.reg r = if r = spIdx then s.decrementSp.sp else s.reg r := by
    rw [reg_decrementSp, sp_decrementSp]
  refine ⟨_, h, decrementSp_sp_toNat s, hsp, ?_, sameMemExcept_of_write hmem,
    congrArg zext9 htarget, hregs, rfl, ⟨rfl, rfl⟩, rfl⟩
  rw [hmem, Memory.read_write_same]
  exact (BitVec.toNat_ofNat ..).trans (Nat.mod_eq_of_lt (Nat.lt_succ_of_le hpc))

/-- Settles O25: RET is one jump to the byte at `SP` and one increment of `SP`
(44_control_transfer.md R81). -/
theorem retPopsThePc : Obligations.RetPopsThePc := by
  intro s
  have h := exec_ret s
  have hregs : SameRegsExcept [spIdx] s _ := (exec_effect h).regs
  refine ⟨_, h, zext9_toNat _, ?_, hregs, rfl, ⟨rfl, rfl⟩, fun _ => rfl, rfl⟩
  rw [sp_incrementSp, sp_jump, BitVec.toNat_add]
  rfl

/-- A running machine with a CALL's two bytes at `pc` runs that CALL. -/
theorem step_of_call {s : State} {b : Byte} (hrun : s.run = .running) (hpc : s.pc.toNat + 1 ≤ 255)
    (hop : s.mem.read s.pc.toNat = defaultOpc .call) (hreg : s.mem.read (s.pc.toNat + 1) = b) :
    step s = exec (.call b) s := by
  refine stepRunsTheInstructionAtPc s (.call b) hrun (Nat.succ_le_succ hpc) fun k hk => ?_
  match k, hk with
  | 0, _ => exact congrArg some hop.symm
  | 1, _ => exact congrArg some hreg.symm

/-- A running machine with RET's byte at `pc` runs RET, at the last address too. -/
theorem step_of_ret {s : State} (hrun : s.run = .running) (hpc : s.pc.toNat ≤ 255)
    (hop : s.mem.read s.pc.toNat = defaultOpc .ret) : step s = exec .ret s := by
  refine stepRunsTheInstructionAtPc s .ret hrun (Nat.succ_le_succ hpc) fun k hk => ?_
  obtain rfl := Nat.lt_one_iff.1 hk
  exact congrArg some hop.symm

/-- Settles O26: RET reads the cell CALL wrote, at the `SP` CALL left, and the increment takes back
the decrement (44_control_transfer.md R80, R81). -/
theorem retReturnsBehindTheCall : Obligations.RetReturnsBehindTheCall := by
  intro s r hrun hpc hr hcall hreg hret hkeep
  obtain ⟨t, ht, hdec, htsp, hpushed, hmem, htpc, htregs, htflags, ⟨htrun, htfault⟩, htout⟩ :=
    (callPushesTheReturnAddressAndJumps r s).1 hpc
  obtain ⟨u, hu, hupc, husp, huregs, huflags, ⟨hurun, hufault⟩, -, huout⟩ := retPopsThePc t
  rw [if_neg hr] at htpc
  have htaddr : t.pc.toNat = (s.reg r).toNat := htpc ▸ zext9_toNat (s.reg r)
  have htop : t.mem.read t.pc.toNat = defaultOpc .ret := by rw [htaddr, hmem _ hkeep, hret]
  have hsp : u.sp = s.sp := by
    apply BitVec.eq_of_toNat_eq
    rw [husp, htsp, hdec]
    have := byte_lt_memSize s.sp
    omega
  refine ⟨t, u, (step_of_call hrun (by omega) hcall hreg).trans ht,
    (step_of_ret (htrun.trans hrun) (htpc ▸ zext9_toNat_le _) htop).trans hu, htpc, ?_,
    fun i => ?_, huflags.trans htflags, ⟨hurun.trans htrun, hufault.trans htfault⟩,
    huout.trans htout⟩
  · rw [hupc, htsp, hpushed]
  · by_cases hi : i = spIdx
    · exact hi ▸ hsp
    · have hi' : i ∉ [spIdx] := mt List.mem_singleton.1 hi
      exact (huregs i hi').trans (htregs i hi')

end Sys2Proof.Machine

/-! ### Exceptions -/

namespace Sys2Proof.Machine

/-- A running machine takes its first fault, or has none and completes (60_exceptions.md R93). -/
theorem stepWith_firstFault_cases (opc : Mnemonic → Byte) {s : State} (hrun : s.run = .running) :
    (∃ r, firstFault opc s = some r ∧ stepWith opc s = .next (s.takeFault r)) ∨
    (firstFault opc s = none ∧ ∃ t, stepWith opc s = .next t ∧ t.run ≠ .faulted) := by
  cases hf : s.fetch opc with
  | error r => exact .inl ⟨r, firstFault_of_fetch_error hf, stepWith_of_fetch_error hrun hf⟩
  | ok i =>
    rw [firstFault_of_fetch_ok hf, stepWith_of_fetch hrun hf]
    cases hi : instrFault i s with
    | some r => exact .inl ⟨r, rfl, exec_instrFault hi⟩
    | none =>
      obtain ⟨t, ht, -, htrun⟩ := exec_of_instrFault_none hi
      refine .inr ⟨rfl, t, ht, ?_⟩
      rw [htrun, hrun]
      split <;> exact RunState.noConfusion

/-- Settles O7: a failed fetch is the first fault, and after a fetch the instruction's fault is. -/
theorem stepTakesTheFirstFaultInOrder : Obligations.StepTakesTheFirstFaultInOrder := by
  intro opc s hrun
  obtain ⟨r, hf, h⟩ | ⟨hf, h⟩ := stepWith_firstFault_cases opc hrun
  · rw [hf]
    exact ⟨fun _ hr => Option.some.inj hr ▸ h, nofun⟩
  · rw [hf]
    exact ⟨nofun, fun _ => h⟩

/-- What can be raised in state `s`: a fault that has a cause, not the reserved one
(60_exceptions.md R89), and `FlagsUninitialized` only before any comparison (R91). -/
structure Raisable (s : State) (r : Raise) : Prop where
  caused : r.cause ≠ .none
  not_reserved : r.cause ≠ .unsupportedOperation
  flags_unset : r.cause = .flagsUninitialized → s.flags.valid = false

/-- A failed fetch raises only what can be raised. -/
theorem raisable_of_fetch_error {opc : Mnemonic → Byte} {s : State} {r : Raise}
    (h : s.fetch opc = .error r) : Raisable s r := by
  obtain e | e := fetch_error h <;> constructor <;> simp [e]

/-- An instruction takes a fault that can be raised, or leaves the record alone and the machine not
newly `Faulted`. -/
theorem Effect.raised {s t : State} {i : Instr} (h : Effect s i t) :
    (∃ r, Raisable s r ∧ t = s.takeFault r) ∨
    (t.fault = s.fault ∧ (t.run = .faulted → s.run = .faulted)) := by
  cases h with
  | fault i r _ _ hnone hop hflags => exact .inl ⟨r, ⟨hnone, hop, hflags⟩, rfl⟩
  | hlt => exact .inr ⟨rfl, nofun⟩
  | _ => exact .inr ⟨rfl, id⟩

/-- A step takes a fault that can be raised, or leaves the record alone and the machine not newly
`Faulted`. -/
theorem step_raised {s t : State} (h : step s = .next t) :
    (∃ r, Raisable s r ∧ t = s.takeFault r) ∨
    (t.fault = s.fault ∧ (t.run = .faulted → s.run = .faulted)) := by
  obtain ⟨-, rfl⟩ | ⟨-, r, hf, rfl⟩ | ⟨-, i, -, -, he⟩ := step_effect h
  · exact .inr ⟨rfl, id⟩
  · exact .inl ⟨r, raisable_of_fetch_error hf, rfl⟩
  · exact he.raised

/-- Settles O8: a step that faults is `takeFault`, which writes `RUN` and the record alone. -/
theorem faultingStepHasNoOtherEffect : Obligations.FaultingStepHasNoOtherEffect := by
  intro s t hrun h ht
  obtain ⟨r, hr, rfl⟩ | ⟨-, hsame⟩ := step_raised h
  · exact ⟨fun _ => rfl, rfl, fun _ => rfl, rfl, rfl, rfl, hr.caused⟩
  · cases hrun.symm.trans (hsame ht)

/-- A step on valid flags keeps them valid and does not record `FlagsUninitialized`. -/
theorem step_keeps_flags_initialized {s t : State} (h : step s = .next t)
    (hs : s.flags.valid = true ∧ s.fault.cause ≠ .flagsUninitialized) :
    t.flags.valid = true ∧ t.fault.cause ≠ .flagsUninitialized := by
  obtain ⟨hv, hcause⟩ := hs
  constructor
  · obtain e | ⟨-, hv'⟩ := step_flags h
    · exact e ▸ hv
    · exact hv'
  · obtain ⟨r, hr, rfl⟩ | ⟨hfault, -⟩ := step_raised h
    · exact fun e => absurd (hr.flags_unset e) (by simp [hv])
    · exact hfault ▸ hcause

/-- Settles O29: the operand is validated before the flags are tested, and no step clears the
latch. -/
theorem condJumpsFaultUntilACompareHasRun : Obligations.CondJumpsFaultUntilACompareHasRun :=
  ⟨fun r s hv => ⟨condJump_unset s r true hv, condJump_unset s r false hv⟩,
    fun _ s hr => ⟨withReg_bad hr _ s, withReg_bad hr _ s⟩,
    fun k _ _ hv hcause h =>
      (core_run_keeps (fun _ _ hs hst => step_keeps_flags_initialized hst hs) k ⟨hv, hcause⟩ h).2⟩

/-- Code 3 is the reserved cause's alone (60_exceptions.md R86). -/
theorem Cause.code_eq_three (c : Cause) : c.code = 3 ↔ c = .unsupportedOperation := by
  cases c <;> decide

/-- Taking what can be raised, or leaving the record alone, does not record the reserved cause. -/
theorem not_reserved_of_raised {s t : State} {p : Prop}
    (h : (∃ r, Raisable s r ∧ t = s.takeFault r) ∨ (t.fault = s.fault ∧ p))
    (hs : s.fault.cause ≠ .unsupportedOperation) : t.fault.cause ≠ .unsupportedOperation := by
  obtain ⟨r, hr, rfl⟩ | ⟨hfault, -⟩ := h
  · exact hr.not_reserved
  · exact hfault ▸ hs

/-- Settles O44: nothing an instruction or a step raises has the reserved cause. -/
theorem unsupportedOperationIsNeverRecorded :
    Obligations.UnsupportedOperationIsNeverRecorded := by
  refine ⟨Cause.code_eq_three, fun i s t h => ?_, fun k s t hs h => ?_⟩
  · simp only [ne_eq, Cause.code_eq_three]
    exact not_reserved_of_raised (exec_effect h).raised
  · simp only [ne_eq, Cause.code_eq_three] at hs ⊢
    exact core_run_keeps (fun _ _ hu huv => not_reserved_of_raised (step_raised huv) hu) k hs h

end Sys2Proof.Machine

/-! ### Reset and launch, and that every step is defined -/

namespace Sys2Proof.Machine

/-- Settles O11: a step takes a fault, changes nothing or executes, and execution has an effect. -/
theorem everyStepAnswersANextState : Obligations.EveryStepAnswersANextState :=
  ⟨step_next, fun i s => (exec_effect_of i s).imp fun _ => And.left⟩

/-- The registers at reset: all 0 but the stack pointer (70_reset_and_hazards.md R105). -/
theorem reg_resetWith (spInit : Byte) (i : RegIdx) :
    (State.resetWith spInit).reg i = if i = spIdx then spInit else 0 := by
  fin_cases i <;> rfl

/-- An image that fits is loaded into the memory of the reset state (R105, R108). -/
theorem launch_of_length_le (spInit : Byte) {image : List Byte} (h : image.length ≤ memSize) :
    State.launch spInit image =
      .ok ((State.resetWith spInit).setMem (Memory.storeBytes [] 0 image)) :=
  loadFrom_ok image (State.resetWith spInit) 0 (by rwa [Nat.zero_add])

/-- An image that does not fit fails at the first address past the end of memory (R106). -/
theorem launch_of_lt_length (spInit : Byte) {image : List Byte} (h : memSize < image.length) :
    State.launch spInit image = .error ⟨.outOfRange, 256⟩ :=
  loadFrom_error image (State.resetWith spInit) 0 (Nat.zero_le _) (by rwa [Nat.zero_add])

/-- Empty memory loaded with an image reads as the image, and as 0 behind it. -/
theorem Memory.read_storeBytes_nil {image : List Byte} (h : image.length ≤ memSize) (a : Nat) :
    (Memory.storeBytes [] 0 image).read a = image[a]?.getD 0 := by
  rw [Memory.read_storeBytes image [] 0 a (by rwa [Nat.zero_add]), Nat.zero_add, Nat.sub_zero]
  split
  · rfl
  · next ha =>
    rw [List.getElem?_eq_none (by omega)]
    rfl

/-- Settles O39: a launch is the reset state with the image in memory. -/
theorem launchGivesTheResetValues : Obligations.LaunchGivesTheResetValues := by
  intro spInit image h
  refine ⟨_, launch_of_length_le spInit h, fun i hi => ?_, reg_resetWith spInit spIdx, rfl, rfl, rfl,
    rfl, rfl, rfl, rfl, rfl, rfl, rfl, fun a ha => ?_, fun a ha => ?_⟩
  · rw [setMem_reg, reg_resetWith, if_neg hi]
  · rw [setMem_mem, Memory.read_storeBytes_nil h, List.getElem?_eq_getElem ha, Option.getD_some]
  · rw [setMem_mem, Memory.read_storeBytes_nil h, List.getElem?_eq_none ha, Option.getD_none]

/-- With no program the byte at address 0 is 0, which is no opcode of the default map (R106). -/
theorem step_resetWith (spInit : Byte) :
    step (State.resetWith spInit) =
      .next ((State.resetWith spInit).takeFault ⟨.unknownOpcode, 0⟩) :=
  have hzero : lookupOpcode defaultOpc 0 = none := by decide
  stepWith_of_fetch_error rfl
    (fetch_unknown (s := State.resetWith spInit) (show 0 < memSize by decide) hzero)

/-- Settles O40: the 257th byte has no cell, and the launch of the empty image is the reset
state. -/
theorem tooLongAnImageDoesNotLaunch : Obligations.TooLongAnImageDoesNotLaunch := by
  refine ⟨fun spInit _ h => launch_of_lt_length spInit h, rfl, fun spInit s h => ?_⟩
  obtain rfl : State.resetWith spInit = s := Except.ok.inj h
  exact step_resetWith spInit

end Sys2Proof.Machine
